-- ==== Sys2Proof/Word.lean ====
section
/-! DEFINITION. The machine's word types (R20, R25) and its register names (R20). -/

namespace Sys2Proof

/-- One byte of the code image (R41) or an `I8` immediate field (R62). -/
abbrev Byte := BitVec 8

/-- An `I16` immediate field (R62). -/
abbrev Half := BitVec 16

/-- The contents of a general register (R20) or of `$flags` (R25). -/
abbrev Word := BitVec 32

/-- A register number 0 to 15, naming `$r0` to `$r15` (R20, R62). -/
abbrev Reg := Fin 16

end Sys2Proof
end

