-- ==== Sys2Proof/Config.lean ====
section
/-! DEFINITION. The named parameters of the model (R2, R5, R25, R32, R164): what an implementation, or the
reader of a claim, fixes. The machine carries one `Config` in its state and no step changes it. -/

namespace Sys2Proof

/-- `FALCON_VERSION`: 0, or an integer from 3 up (R2). Versions 1 and 2 are outside the domain (D24, U11) and
no value of this type stands for them. -/
inductive FalconVersion where
  /-- Version 0, the spec's "v0 units". -/
  | v0
  /-- Version `3 + above`, the spec's "v3+ units". -/
  | v3plus (above : Nat)
deriving DecidableEq, Repr

/-- The number `FALCON_VERSION` itself (R2). -/
def FalconVersion.number : FalconVersion → Nat
  | .v0 => 0
  | .v3plus above => 3 + above

/-- `isV0 := (FALCON_VERSION = 0)`, the one predicate through which the version matters (R2). -/
def FalconVersion.isV0 (v : FalconVersion) : Bool := v.number == 0

/-- `INS_OOB`: what `ins` does when its bitfield is out of bounds (R164, D14). -/
inductive InsOob where
  /-- The source's pseudocode: the destination keeps its value. -/
  | nop
  /-- The conservative variant: the spec gives the case no meaning. -/
  | refuse
deriving DecidableEq, Repr

/-- What an access to a `$flags` bit outside `FLAGS_DEFINED_MASK` does (R25, D9, U5). -/
inductive FlagsOutside where
  /-- The rule's own reading: the bit is plain storage. -/
  | plainStorage
  /-- The conservative variant: the spec gives the access no meaning. -/
  | refuse
deriving DecidableEq, Repr

/-- The parameters of the step relation that R32 lists, beside the code image. -/
structure Config where
  /-- `FALCON_VERSION` (R2, D1). -/
  falconVersion : FalconVersion
  /-- `FLAGS_DEFINED_MASK`: the `$flags` bits whose plain-storage behaviour the source supports (R25). -/
  flagsDefinedMask : Word
  /-- The reading of R25 for a bit outside the mask. -/
  flagsOutside : FlagsOutside
  /-- `INS_OOB` (R164). -/
  insOob : InsOob
deriving DecidableEq, Repr

/-- The parameters' values in the state after reset: R5's defaults, and version 3 where R2 leaves the version
open. DESIGN CHOICE (log 2): version 3 and the plain-storage reading; unsafe where a claim rests on them. -/
def Config.default : Config where
  falconVersion := .v3plus 0
  flagsDefinedMask := 0x00000F00#32
  flagsOutside := .plainStorage
  insOob := .nop

end Sys2Proof
end

