-- ==== Sys2Proof/Syntax.lean ====
section
/-! DEFINITION. The abstract syntax of the 37 instructions in scope (R3): operation sizes (R7), operand forms
(R62, R63) and the one inductive `Instr`. A row of spec/opcode_table.json is one value of (constructor, form,
size); each family has the form type that R63 tabulates for it, so a form the table lacks cannot be written. -/

namespace Sys2Proof

/-- The operation size `sz` of a sized instruction (R7). -/
inductive Size where
  | b8
  | b16
  | b32
deriving DecidableEq, Repr

/-- The six three-operand forms `DST, SRC1, SRC2` of `add`, `adc`, `sub`, `sbb` (R110), of `mulu`, `muls` (R150)
and of `and`, `or`, `xor` (R170). A constructor's name spells the form as R62 does. -/
inductive AluForm where
  | r1r2i8 (r1 r2 : Reg) (imm : Byte)
  | r1r2i16 (r1 r2 : Reg) (imm : Half)
  | r2r2i8 (r2 : Reg) (imm : Byte)
  | r2r2i16 (r2 : Reg) (imm : Half)
  | r2r2r1 (r2 r1 : Reg)
  | r3r2r1 (r3 r2 r1 : Reg)
deriving DecidableEq, Repr

/-- The four three-operand forms without an `I16`: the shifts (R120) and `sext` (R160). -/
inductive ShiftForm where
  | r1r2i8 (r1 r2 : Reg) (imm : Byte)
  | r2r2i8 (r2 : Reg) (imm : Byte)
  | r2r2r1 (r2 r1 : Reg)
  | r3r2r1 (r3 r2 r1 : Reg)
deriving DecidableEq, Repr

/-- The three forms of `extr`, `extrs` (R160) and of `div`, `mod` (R190). -/
inductive FieldForm where
  | r1r2i8 (r1 r2 : Reg) (imm : Byte)
  | r1r2i16 (r1 r2 : Reg) (imm : Half)
  | r3r2r1 (r3 r2 r1 : Reg)
deriving DecidableEq, Repr

/-- The two forms of `ins` (R160, R164). -/
inductive InsForm where
  | r1r2i8 (r1 r2 : Reg) (imm : Byte)
  | r1r2i16 (r1 r2 : Reg) (imm : Half)
deriving DecidableEq, Repr

/-- The three forms `SRC1, SRC2` of the comparisons (R100). -/
inductive CmpForm where
  | r2i8 (r2 : Reg) (imm : Byte)
  | r2i16 (r2 : Reg) (imm : Half)
  | r2r1 (r2 r1 : Reg)
deriving DecidableEq, Repr

/-- The two forms `DST, SRC` of the unary operations (R130). -/
inductive UnaryForm where
  | r1r2 (r1 r2 : Reg)
  | r2r2 (r2 : Reg)
deriving DecidableEq, Repr

/-- The two forms `DST, SRC` of `mov` (immediate) and `sethi` (R140). -/
inductive ImmForm where
  | r2i8 (r2 : Reg) (imm : Byte)
  | r2i16 (r2 : Reg) (imm : Half)
deriving DecidableEq, Repr

/-- The four forms of `xbit`; two take `$flags` as `SRC1` (R26, R180). -/
inductive XbitForm where
  | r1r2i8 (r1 r2 : Reg) (imm : Byte)
  | r3r2r1 (r3 r2 r1 : Reg)
  | r2flagsi8 (r2 : Reg) (imm : Byte)
  | r1flagsr2 (r1 r2 : Reg)
deriving DecidableEq, Repr

/-- The four forms of `bset`, `bclr`, `btgl`; two take `$flags` as `DST` (R26, R181). -/
inductive BitForm where
  | r2i8 (r2 : Reg) (imm : Byte)
  | r2r1 (r2 r1 : Reg)
  | flagsi8 (imm : Byte)
  | flagsr2 (r2 : Reg)
deriving DecidableEq, Repr

/-- The two forms `SRC1, SRC2` of `setp` (R193). -/
inductive SetpForm where
  | r2i8 (r2 : Reg) (imm : Byte)
  | r2r1 (r2 r1 : Reg)
deriving DecidableEq, Repr

/-- The instructions in scope (R3), in the order of spec/opcode_table.json. `mov` is two instructions
(R81): the sized register move `movReg` and the unsized immediate load `movImm`. -/
inductive Instr where
  | cmpu (sz : Size) (f : CmpForm)
  | cmps (sz : Size) (f : CmpForm)
  | cmp (sz : Size) (f : CmpForm)
  | add (sz : Size) (f : AluForm)
  | adc (sz : Size) (f : AluForm)
  | sub (sz : Size) (f : AluForm)
  | sbb (sz : Size) (f : AluForm)
  | shl (sz : Size) (f : ShiftForm)
  | shr (sz : Size) (f : ShiftForm)
  | sar (sz : Size) (f : ShiftForm)
  | shlc (sz : Size) (f : ShiftForm)
  | shrc (sz : Size) (f : ShiftForm)
  | not (sz : Size) (f : UnaryForm)
  | neg (sz : Size) (f : UnaryForm)
  | movf (sz : Size) (f : UnaryForm)
  | movReg (sz : Size) (f : UnaryForm)
  | hswap (sz : Size) (f : UnaryForm)
  | movImm (f : ImmForm)
  | sethi (f : ImmForm)
  | clear (sz : Size) (r2 : Reg)
  | setf (sz : Size) (r2 : Reg)
  | mulu (f : AluForm)
  | muls (f : AluForm)
  | sext (f : ShiftForm)
  | extr (f : FieldForm)
  | extrs (f : FieldForm)
  | ins (f : InsForm)
  | and (f : AluForm)
  | or (f : AluForm)
  | xor (f : AluForm)
  | xbit (f : XbitForm)
  | bset (f : BitForm)
  | bclr (f : BitForm)
  | btgl (f : BitForm)
  | div (f : FieldForm)
  | mod (f : FieldForm)
  | setp (f : SetpForm)
deriving DecidableEq, Repr

end Sys2Proof
end

