-- ==== Sys2Proof/WellFormed.lean ====
section
/-! DEFINITION. Which instructions exist on which hardware version (R66). The operand forms and the field widths
are right by the types of Syntax.lean; presence on the version is the one check left. -/

namespace Sys2Proof

/-- The "Present on" word of an instruction (R66). -/
inductive Presence where
  /-- "all units". -/
  | all
  /-- "v0 units". -/
  | v0Only
  /-- "v3+ units". -/
  | v3plusOnly
deriving DecidableEq, Repr

/-- The instruction's "Present on" entry; sections without the column are taken as all versions (R66, D18). -/
def Instr.presence : Instr → Presence
  | .cmpu _ _ => .all
  | .cmps _ _ => .all
  | .cmp _ _ => .v3plusOnly
  | .add _ _ => .all
  | .adc _ _ => .all
  | .sub _ _ => .all
  | .sbb _ _ => .all
  | .shl _ _ => .all
  | .shr _ _ => .all
  | .sar _ _ => .all
  | .shlc _ _ => .all
  | .shrc _ _ => .all
  | .not _ _ => .all
  | .neg _ _ => .all
  | .movf _ _ => .v0Only
  | .movReg _ _ => .v3plusOnly
  | .hswap _ _ => .all
  | .movImm _ => .all
  | .sethi _ => .all
  | .clear _ _ => .all
  | .setf _ _ => .v3plusOnly
  | .mulu _ => .all
  | .muls _ => .all
  | .sext _ => .all
  | .extr _ => .v3plusOnly
  | .extrs _ => .v3plusOnly
  | .ins _ => .v3plusOnly
  | .and _ => .all
  | .or _ => .all
  | .xor _ => .all
  | .xbit _ => .all
  | .bset _ => .all
  | .bclr _ => .all
  | .btgl _ => .all
  | .div _ => .v3plusOnly
  | .mod _ => .v3plusOnly
  | .setp _ => .all

/-- A presence admits a version. -/
def Presence.admits (p : Presence) (v : FalconVersion) : Bool :=
  match p with
  | .all => true
  | .v0Only => v.isV0
  | .v3plusOnly => !v.isV0

/-- An instruction is well formed for a version when the version has it (R66). -/
def Instr.wellFormed (v : FalconVersion) (i : Instr) : Bool := i.presence.admits v

end Sys2Proof
end

