-- ==== Sys2Proof/Decode.lean ====
section
/-! DEFINITION. The byte layout of an instruction (30_encoding.md): the decoder of R80 over the fields of R71 to
R76, and after it the encoder. Total on any bytes; what it does not accept it rejects by name. -/

namespace Sys2Proof

/-- Why a byte string is not an instruction: the reasons of R80. -/
inductive DecodeError where
  /-- An opcode, or an opcode and subopcode pair, that R63 does not list (R78). -/
  | notAnInstruction
  /-- Fewer bytes than the opcode's length (R41, R80). -/
  | runsPastCodeImage
  /-- A must-be-zero bit is 1 (R77). -/
  | unusedBitsSet
  /-- The instruction does not exist on this hardware version (R66). -/
  | notPresentOnVersion
deriving DecidableEq, Repr

/-- The opcodes of sized instructions (R61). -/
inductive SizedOpcode where
  | x10 | x20 | x30 | x31 | x36 | x37 | x38 | x39 | x3b | x3c | x3d
deriving DecidableEq, Repr

/-- The opcodes of unsized instructions (R61). -/
inductive UnsizedOpcode where
  | xc0 | xe0 | xf0 | xf1 | xf2 | xf4 | xf9 | xfa | xfd | xfe | xff
deriving DecidableEq, Repr

/-- What byte 0 selects (R70, R71): an unsized opcode, or a size and a sized opcode. -/
inductive Opcode where
  | sized (sz : Size) (op : SizedOpcode)
  | unsized (op : UnsizedOpcode)
deriving DecidableEq, Repr

/-- The high four bits of a byte. -/
def hiNibble (b : Byte) : BitVec 4 := b.extractLsb' 4 4

/-- The low four bits of a byte. -/
def loNibble (b : Byte) : BitVec 4 := b.extractLsb' 0 4

/-- The size field, bits 7:6 of byte 0; `11` marks an unsized instruction (R71). -/
def sizeOfField (ss : BitVec 2) : Option Size :=
  match ss.toNat with
  | 0 => some .b8
  | 1 => some .b16
  | 2 => some .b32
  | _ => none

/-- The sized opcode in bits 5:0 of byte 0 (R71, R80). -/
def sizedKey (op6 : BitVec 6) : Option SizedOpcode :=
  match (if op6.extractLsb' 4 2 = 0b11#2 then op6 else op6 &&& 0x30#6).toNat with
  | 0x10 => some .x10
  | 0x20 => some .x20
  | 0x30 => some .x30
  | 0x31 => some .x31
  | 0x36 => some .x36
  | 0x37 => some .x37
  | 0x38 => some .x38
  | 0x39 => some .x39
  | 0x3b => some .x3b
  | 0x3c => some .x3c
  | 0x3d => some .x3d
  | _ => none

/-- The unsized opcode of byte 0 (R71, R80). -/
def unsizedKey (b0 : Byte) : Option UnsizedOpcode :=
  match (if hiNibble b0 = 0xf#4 then b0 else b0 &&& 0xf0#8).toNat with
  | 0xc0 => some .xc0
  | 0xe0 => some .xe0
  | 0xf0 => some .xf0
  | 0xf1 => some .xf1
  | 0xf2 => some .xf2
  | 0xf4 => some .xf4
  | 0xf9 => some .xf9
  | 0xfa => some .xfa
  | 0xfd => some .xfd
  | 0xfe => some .xfe
  | 0xff => some .xff
  | _ => none

/-- The opcode of byte 0, or none where R63 lists none (R80). -/
def opcodeOf (b0 : Byte) : Option Opcode :=
  match sizeOfField (b0.extractLsb' 6 2) with
  | none => (unsizedKey b0).map .unsized
  | some sz => (sizedKey (b0.extractLsb' 0 6)).map (.sized sz)

/-- The instruction's length in bytes, by its opcode (R75). -/
def Opcode.length : Opcode → Nat
  | .sized _ .x10 => 3
  | .sized _ .x20 => 4
  | .sized _ .x30 => 3
  | .sized _ .x31 => 4
  | .sized _ .x36 => 3
  | .sized _ .x37 => 4
  | .sized _ .x38 => 3
  | .sized _ .x39 => 3
  | .sized _ .x3b => 3
  | .sized _ .x3c => 3
  | .sized _ .x3d => 2
  | .unsized .xc0 => 3
  | .unsized .xe0 => 4
  | .unsized .xf0 => 3
  | .unsized .xf1 => 4
  | .unsized .xf2 => 3
  | .unsized .xf4 => 3
  | .unsized .xf9 => 2
  | .unsized .xfa => 3
  | .unsized .xfd => 3
  | .unsized .xfe => 3
  | .unsized .xff => 3

/-- The bytes of an instruction of the longest length; a shorter one uses the first two or three. -/
structure Fields where
  b0 : Byte
  b1 : Byte
  b2 : Byte
  b3 : Byte
deriving DecidableEq, Repr

/-- A four-bit register field names a register (R62). -/
def regOf (n : BitVec 4) : Reg := n.toFin

/-- `R1` is bits 3:0 of byte 1 (R73). -/
def Fields.r1 (x : Fields) : Reg := regOf (loNibble x.b1)

/-- `R2` is bits 7:4 of byte 1 (R73). -/
def Fields.r2 (x : Fields) : Reg := regOf (hiNibble x.b1)

/-- `R3` is bits 7:4 of byte 2 (R73). -/
def Fields.r3 (x : Fields) : Reg := regOf (hiNibble x.b2)

/-- `I8` is byte 2 (R74). -/
def Fields.i8 (x : Fields) : Byte := x.b2

/-- `I16` is bytes 2 and 3, low byte first (R74, R42). -/
def Fields.i16 (x : Fields) : Half := x.b3 ++ x.b2

/-- Subopcode place O1: bits 3:0 of byte 0 (R72). -/
def Fields.o1 (x : Fields) : Nat := (loNibble x.b0).toNat

/-- Subopcode place O2: bits 3:0 of byte 1 (R72). -/
def Fields.o2 (x : Fields) : Nat := (loNibble x.b1).toNat

/-- Subopcode place OL: bits 5:0 of byte 1 (R72). -/
def Fields.ol (x : Fields) : Nat := (x.b1.extractLsb' 0 6).toNat

/-- Subopcode place O3: bits 3:0 of byte 2 (R72). -/
def Fields.o3 (x : Fields) : Nat := (loNibble x.b2).toNat

/-- A must-be-zero bit of the opcode's format is 1 (R77). -/
def unusedBits (op : Opcode) (x : Fields) : Bool :=
  match op with
  | .sized _ .x38 => hiNibble x.b2 != 0
  | .sized _ .x39 => hiNibble x.b2 != 0
  | .sized _ .x3b => hiNibble x.b2 != 0
  | .unsized .xfa => hiNibble x.b2 != 0
  | .unsized .xfd => hiNibble x.b2 != 0
  | .unsized .xfe => hiNibble x.b2 != 0
  | .unsized .xf4 => x.b1.extractLsb' 6 2 != 0
  | .sized _ .x10 => false
  | .sized _ .x20 => false
  | .sized _ .x30 => false
  | .sized _ .x31 => false
  | .sized _ .x36 => false
  | .sized _ .x37 => false
  | .sized _ .x3c => false
  | .sized _ .x3d => false
  | .unsized .xc0 => false
  | .unsized .xe0 => false
  | .unsized .xf0 => false
  | .unsized .xf1 => false
  | .unsized .xf2 => false
  | .unsized .xf9 => false
  | .unsized .xff => false

/-- Subopcodes of the comparisons (R63, R100). -/
def compareCell (sz : Size) (sub : Nat) (f : CmpForm) : Option Instr :=
  match sub with
  | 4 => some (.cmpu sz f)
  | 5 => some (.cmps sz f)
  | 6 => some (.cmp sz f)
  | _ => none

/-- Subopcodes of addition and subtraction (R63, R110). -/
def addSubCell (sz : Size) (sub : Nat) (f : AluForm) : Option Instr :=
  match sub with
  | 0 => some (.add sz f)
  | 1 => some (.adc sz f)
  | 2 => some (.sub sz f)
  | 3 => some (.sbb sz f)
  | _ => none

/-- Subopcodes of the shifts (R63, R120). -/
def shiftCell (sz : Size) (sub : Nat) (f : ShiftForm) : Option Instr :=
  match sub with
  | 0x4 => some (.shl sz f)
  | 0x5 => some (.shr sz f)
  | 0x6 => some (.sar sz f)
  | 0xc => some (.shlc sz f)
  | 0xd => some (.shrc sz f)
  | _ => none

/-- Subopcodes of the unary operations; 2 is `movf` on v0 and `mov` otherwise (R63, R66, R130). -/
def unaryCell (v : FalconVersion) (sz : Size) (sub : Nat) (f : UnaryForm) : Option Instr :=
  match sub with
  | 0 => some (.not sz f)
  | 1 => some (.neg sz f)
  | 2 => some (if v.isV0 then .movf sz f else .movReg sz f)
  | 3 => some (.hswap sz f)
  | _ => none

/-- Subopcodes of `clear` and `setf` on opcode 0x3d (R63, R143, R144). -/
def oneRegCell (sz : Size) (sub : Nat) (r2 : Reg) : Option Instr :=
  match sub with
  | 4 => some (.clear sz r2)
  | 5 => some (.setf sz r2)
  | _ => none

/-- Subopcodes of multiplication and the bitwise operations (R63, R150, R170). -/
def mulLogicCell (sub : Nat) (f : AluForm) : Option Instr :=
  match sub with
  | 0 => some (.mulu f)
  | 1 => some (.muls f)
  | 4 => some (.and f)
  | 5 => some (.or f)
  | 6 => some (.xor f)
  | _ => none

/-- Subopcode of `sext` (R63, R160). -/
def sextCell (sub : Nat) (f : ShiftForm) : Option Instr :=
  match sub with
  | 2 => some (.sext f)
  | _ => none

/-- Subopcodes of bitfield extraction and division (R63, R160, R190). -/
def fieldCell (sub : Nat) (f : FieldForm) : Option Instr :=
  match sub with
  | 0x3 => some (.extrs f)
  | 0x7 => some (.extr f)
  | 0xc => some (.div f)
  | 0xd => some (.mod f)
  | _ => none

/-- Subopcode of `ins` (R63, R160). -/
def insCell (sub : Nat) (f : InsForm) : Option Instr :=
  match sub with
  | 0xb => some (.ins f)
  | _ => none

/-- Subopcodes of the immediate loads (R63, R140). -/
def immCell (sub : Nat) (f : ImmForm) : Option Instr :=
  match sub with
  | 3 => some (.sethi f)
  | 7 => some (.movImm f)
  | _ => none

/-- Subopcode of `xbit`: 8 on 0xc0 and 0xff, c on 0xf0 and 0xfe (R63, R180). -/
def xbitCell (own sub : Nat) (f : XbitForm) : Option Instr :=
  if sub = own then some (.xbit f) else none

/-- Subopcodes of `bset`, `bclr`, `btgl`, from 9 up or from 0x31 up (R63, R181). -/
def bitCell (first sub : Nat) (f : BitForm) : Option Instr :=
  if sub = first then some (.bset f)
  else if sub = first + 1 then some (.bclr f)
  else if sub = first + 2 then some (.btgl f)
  else none

/-- Subopcode of `setp` (R63, R193). -/
def setpCell (sub : Nat) (f : SetpForm) : Option Instr :=
  match sub with
  | 8 => some (.setp f)
  | _ => none

/-- The sized half of the opcode map (R63). -/
def sizedCell (v : FalconVersion) (sz : Size) (op : SizedOpcode) (x : Fields) : Option Instr :=
  match op with
  | .x10 => addSubCell sz x.o1 (.r1r2i8 x.r1 x.r2 x.i8) <|> shiftCell sz x.o1 (.r1r2i8 x.r1 x.r2 x.i8)
  | .x20 => addSubCell sz x.o1 (.r1r2i16 x.r1 x.r2 x.i16)
  | .x30 => compareCell sz x.o2 (.r2i8 x.r2 x.i8)
  | .x31 => compareCell sz x.o2 (.r2i16 x.r2 x.i16)
  | .x36 => addSubCell sz x.o2 (.r2r2i8 x.r2 x.i8) <|> shiftCell sz x.o2 (.r2r2i8 x.r2 x.i8)
  | .x37 => addSubCell sz x.o2 (.r2r2i16 x.r2 x.i16)
  | .x38 => compareCell sz x.o3 (.r2r1 x.r2 x.r1)
  | .x39 => unaryCell v sz x.o3 (.r1r2 x.r1 x.r2)
  | .x3b => addSubCell sz x.o3 (.r2r2r1 x.r2 x.r1) <|> shiftCell sz x.o3 (.r2r2r1 x.r2 x.r1)
  | .x3c => addSubCell sz x.o3 (.r3r2r1 x.r3 x.r2 x.r1) <|> shiftCell sz x.o3 (.r3r2r1 x.r3 x.r2 x.r1)
  | .x3d => unaryCell v sz x.o2 (.r2r2 x.r2) <|> oneRegCell sz x.o2 x.r2

/-- The unsized half of the opcode map (R63). -/
def unsizedCell (op : UnsizedOpcode) (x : Fields) : Option Instr :=
  match op with
  | .xc0 =>
    mulLogicCell x.o1 (.r1r2i8 x.r1 x.r2 x.i8) <|> sextCell x.o1 (.r1r2i8 x.r1 x.r2 x.i8) <|>
      fieldCell x.o1 (.r1r2i8 x.r1 x.r2 x.i8) <|> xbitCell 0x8 x.o1 (.r1r2i8 x.r1 x.r2 x.i8) <|>
      insCell x.o1 (.r1r2i8 x.r1 x.r2 x.i8)
  | .xe0 =>
    mulLogicCell x.o1 (.r1r2i16 x.r1 x.r2 x.i16) <|> fieldCell x.o1 (.r1r2i16 x.r1 x.r2 x.i16) <|>
      insCell x.o1 (.r1r2i16 x.r1 x.r2 x.i16)
  | .xf0 =>
    mulLogicCell x.o2 (.r2r2i8 x.r2 x.i8) <|> sextCell x.o2 (.r2r2i8 x.r2 x.i8) <|>
      immCell x.o2 (.r2i8 x.r2 x.i8) <|> bitCell 0x9 x.o2 (.r2i8 x.r2 x.i8) <|>
      xbitCell 0xc x.o2 (.r2flagsi8 x.r2 x.i8)
  | .xf1 => mulLogicCell x.o2 (.r2r2i16 x.r2 x.i16) <|> immCell x.o2 (.r2i16 x.r2 x.i16)
  | .xf2 => setpCell x.o2 (.r2i8 x.r2 x.i8)
  | .xf4 => bitCell 0x31 x.ol (.flagsi8 x.i8)
  | .xf9 => bitCell 0x9 x.o2 (.flagsr2 x.r2)
  | .xfa => setpCell x.o3 (.r2r1 x.r2 x.r1)
  | .xfd =>
    mulLogicCell x.o3 (.r2r2r1 x.r2 x.r1) <|> sextCell x.o3 (.r2r2r1 x.r2 x.r1) <|>
      bitCell 0x9 x.o3 (.r2r1 x.r2 x.r1)
  | .xfe => xbitCell 0xc x.o3 (.r1flagsr2 x.r1 x.r2)
  | .xff =>
    mulLogicCell x.o3 (.r3r2r1 x.r3 x.r2 x.r1) <|> sextCell x.o3 (.r3r2r1 x.r3 x.r2 x.r1) <|>
      fieldCell x.o3 (.r3r2r1 x.r3 x.r2 x.r1) <|> xbitCell 0x8 x.o3 (.r3r2r1 x.r3 x.r2 x.r1)

/-- The cell of the opcode map of R63 that the fields select, or none. -/
def cellOf (v : FalconVersion) (op : Opcode) (x : Fields) : Option Instr :=
  match op with
  | .sized sz op => sizedCell v sz op x
  | .unsized op => unsizedCell op x

/-- The last test of R80: an instruction the version does not have is refused (R66). -/
def checkPresence (v : FalconVersion) (i : Instr) : Except DecodeError Instr :=
  if i.wellFormed v then .ok i else .error .notPresentOnVersion

/-- Decode the instruction at the head of `bytes` on hardware version `v`: the procedure of R80, its tests in
its order. Bytes after the instruction are ignored. -/
def decode (v : FalconVersion) (bytes : List Byte) : Except DecodeError Instr :=
  match bytes with
  | [] => .error .runsPastCodeImage
  | b0 :: rest =>
    match opcodeOf b0 with
    | none => .error .notAnInstruction
    | some op =>
      if rest.length + 1 < op.length then .error .runsPastCodeImage
      else
        let x : Fields := ⟨b0, rest.getD 0 0, rest.getD 1 0, rest.getD 2 0⟩
        if unusedBits op x then .error .unusedBitsSet
        else
          match cellOf v op x with
          | none => .error .notAnInstruction
          | some i => checkPresence v i

/-! The encoder, written from R71 to R75. -/

/-- The four-bit field of a register (R62). -/
def nibble (r : Reg) : BitVec 4 := BitVec.ofFin r

/-- Two four-bit fields in one byte, the left one in bits 7:4. -/
def pack (hi lo : BitVec 4) : Byte := hi ++ lo

/-- Byte 1 of most formats: `R2` in bits 7:4, `R1` in bits 3:0 (R73). -/
def packRegs (r2 r1 : Reg) : Byte := pack (nibble r2) (nibble r1)

/-- The size field of a sized instruction (R71). -/
def Size.field : Size → BitVec 2
  | .b8 => 0b00#2
  | .b16 => 0b01#2
  | .b32 => 0b10#2

/-- Byte 0 of a sized instruction: the size field over the low six bits (R71). -/
def sizedByte (sz : Size) (op6 : BitVec 6) : Byte := sz.field ++ op6

/-- Bytes 2 and 3 of an `I16`, low byte first (R74). -/
def halfBytes (imm : Half) : List Byte := [imm.extractLsb' 0 8, imm.extractLsb' 8 8]

/-- A shift-family form is one of the three-operand forms (R120, R160). -/
def ShiftForm.toAlu : ShiftForm → AluForm
  | .r1r2i8 r1 r2 imm => .r1r2i8 r1 r2 imm
  | .r2r2i8 r2 imm => .r2r2i8 r2 imm
  | .r2r2r1 r2 r1 => .r2r2r1 r2 r1
  | .r3r2r1 r3 r2 r1 => .r3r2r1 r3 r2 r1

/-- A form of `extr`, `extrs`, `div`, `mod` is one of the three-operand forms (R160, R190). -/
def FieldForm.toAlu : FieldForm → AluForm
  | .r1r2i8 r1 r2 imm => .r1r2i8 r1 r2 imm
  | .r1r2i16 r1 r2 imm => .r1r2i16 r1 r2 imm
  | .r3r2r1 r3 r2 r1 => .r3r2r1 r3 r2 r1

/-- A form of `ins` is one of the three-operand forms (R160). -/
def InsForm.toAlu : InsForm → AluForm
  | .r1r2i8 r1 r2 imm => .r1r2i8 r1 r2 imm
  | .r1r2i16 r1 r2 imm => .r1r2i16 r1 r2 imm

/-- Sized three-operand encodings: opcodes 0x10, 0x20, 0x36, 0x37, 0x3b, 0x3c (R75). -/
def encodeSizedAlu (sz : Size) (sub : BitVec 4) : AluForm → List Byte
  | .r1r2i8 r1 r2 imm => [sizedByte sz (0b01#2 ++ sub), packRegs r2 r1, imm]
  | .r1r2i16 r1 r2 imm => sizedByte sz (0b10#2 ++ sub) :: packRegs r2 r1 :: halfBytes imm
  | .r2r2i8 r2 imm => [sizedByte sz 0x36#6, pack (nibble r2) sub, imm]
  | .r2r2i16 r2 imm => sizedByte sz 0x37#6 :: pack (nibble r2) sub :: halfBytes imm
  | .r2r2r1 r2 r1 => [sizedByte sz 0x3b#6, packRegs r2 r1, pack 0 sub]
  | .r3r2r1 r3 r2 r1 => [sizedByte sz 0x3c#6, packRegs r2 r1, pack (nibble r3) sub]

/-- Unsized three-operand encodings: opcodes 0xc0, 0xe0, 0xf0, 0xf1, 0xfd, 0xff (R75). -/
def encodeUnsizedAlu (sub : BitVec 4) : AluForm → List Byte
  | .r1r2i8 r1 r2 imm => [pack 0xc#4 sub, packRegs r2 r1, imm]
  | .r1r2i16 r1 r2 imm => pack 0xe#4 sub :: packRegs r2 r1 :: halfBytes imm
  | .r2r2i8 r2 imm => [0xf0#8, pack (nibble r2) sub, imm]
  | .r2r2i16 r2 imm => 0xf1#8 :: pack (nibble r2) sub :: halfBytes imm
  | .r2r2r1 r2 r1 => [0xfd#8, packRegs r2 r1, pack 0 sub]
  | .r3r2r1 r3 r2 r1 => [0xff#8, packRegs r2 r1, pack (nibble r3) sub]

/-- Comparison encodings: opcodes 0x30, 0x31, 0x38 (R75). -/
def encodeCmp (sz : Size) (sub : BitVec 4) : CmpForm → List Byte
  | .r2i8 r2 imm => [sizedByte sz 0x30#6, pack (nibble r2) sub, imm]
  | .r2i16 r2 imm => sizedByte sz 0x31#6 :: pack (nibble r2) sub :: halfBytes imm
  | .r2r1 r2 r1 => [sizedByte sz 0x38#6, packRegs r2 r1, pack 0 sub]

/-- Opcode 0x3d, a sized instruction with the one register field `R2` (R75). -/
def encodeOneReg (sz : Size) (sub : BitVec 4) (r2 : Reg) : List Byte :=
  [sizedByte sz 0x3d#6, pack (nibble r2) sub]

/-- Unary encodings: opcodes 0x39, 0x3d (R75). -/
def encodeUnary (sz : Size) (sub : BitVec 4) : UnaryForm → List Byte
  | .r1r2 r1 r2 => [sizedByte sz 0x39#6, packRegs r2 r1, pack 0 sub]
  | .r2r2 r2 => encodeOneReg sz sub r2

/-- Immediate-load encodings: opcodes 0xf0, 0xf1 (R75). -/
def encodeImm (sub : BitVec 4) : ImmForm → List Byte
  | .r2i8 r2 imm => [0xf0#8, pack (nibble r2) sub, imm]
  | .r2i16 r2 imm => 0xf1#8 :: pack (nibble r2) sub :: halfBytes imm

/-- `xbit` encodings: subopcode 8 on 0xc0 and 0xff, c on 0xf0 and 0xfe (R63, R75). -/
def encodeXbit : XbitForm → List Byte
  | .r1r2i8 r1 r2 imm => [pack 0xc#4 0x8#4, packRegs r2 r1, imm]
  | .r3r2r1 r3 r2 r1 => [0xff#8, packRegs r2 r1, pack (nibble r3) 0x8#4]
  | .r2flagsi8 r2 imm => [0xf0#8, pack (nibble r2) 0xc#4, imm]
  | .r1flagsr2 r1 r2 => [0xfe#8, packRegs r2 r1, pack 0 0xc#4]

/-- `bset`, `bclr`, `btgl` encodings: subopcodes 9, a, b, and 0x31, 0x32, 0x33 on opcode 0xf4 (R63, R75). -/
def encodeBit (sub : BitVec 4) (wide : Byte) : BitForm → List Byte
  | .r2i8 r2 imm => [0xf0#8, pack (nibble r2) sub, imm]
  | .r2r1 r2 r1 => [0xfd#8, packRegs r2 r1, pack 0 sub]
  | .flagsi8 imm => [0xf4#8, wide, imm]
  | .flagsr2 r2 => [0xf9#8, pack (nibble r2) sub]

/-- `setp` encodings: opcodes 0xf2, 0xfa (R75). -/
def encodeSetp : SetpForm → List Byte
  | .r2i8 r2 imm => [0xf2#8, pack (nibble r2) 0x8#4, imm]
  | .r2r1 r2 r1 => [0xfa#8, packRegs r2 r1, pack 0 0x8#4]

/-- The bytes of an instruction, in the order they stand in the code image (R63, R70 to R76). -/
def encode : Instr → List Byte
  | .cmpu sz f => encodeCmp sz 0x4#4 f
  | .cmps sz f => encodeCmp sz 0x5#4 f
  | .cmp sz f => encodeCmp sz 0x6#4 f
  | .add sz f => encodeSizedAlu sz 0x0#4 f
  | .adc sz f => encodeSizedAlu sz 0x1#4 f
  | .sub sz f => encodeSizedAlu sz 0x2#4 f
  | .sbb sz f => encodeSizedAlu sz 0x3#4 f
  | .shl sz f => encodeSizedAlu sz 0x4#4 f.toAlu
  | .shr sz f => encodeSizedAlu sz 0x5#4 f.toAlu
  | .sar sz f => encodeSizedAlu sz 0x6#4 f.toAlu
  | .shlc sz f => encodeSizedAlu sz 0xc#4 f.toAlu
  | .shrc sz f => encodeSizedAlu sz 0xd#4 f.toAlu
  | .not sz f => encodeUnary sz 0x0#4 f
  | .neg sz f => encodeUnary sz 0x1#4 f
  | .movf sz f => encodeUnary sz 0x2#4 f
  | .movReg sz f => encodeUnary sz 0x2#4 f
  | .hswap sz f => encodeUnary sz 0x3#4 f
  | .movImm f => encodeImm 0x7#4 f
  | .sethi f => encodeImm 0x3#4 f
  | .clear sz r2 => encodeOneReg sz 0x4#4 r2
  | .setf sz r2 => encodeOneReg sz 0x5#4 r2
  | .mulu f => encodeUnsizedAlu 0x0#4 f
  | .muls f => encodeUnsizedAlu 0x1#4 f
  | .sext f => encodeUnsizedAlu 0x2#4 f.toAlu
  | .extr f => encodeUnsizedAlu 0x7#4 f.toAlu
  | .extrs f => encodeUnsizedAlu 0x3#4 f.toAlu
  | .ins f => encodeUnsizedAlu 0xb#4 f.toAlu
  | .and f => encodeUnsizedAlu 0x4#4 f
  | .or f => encodeUnsizedAlu 0x5#4 f
  | .xor f => encodeUnsizedAlu 0x6#4 f
  | .xbit f => encodeXbit f
  | .bset f => encodeBit 0x9#4 0x31#8 f
  | .bclr f => encodeBit 0xa#4 0x32#8 f
  | .btgl f => encodeBit 0xb#4 0x33#8 f
  | .div f => encodeUnsizedAlu 0xc#4 f.toAlu
  | .mod f => encodeUnsizedAlu 0xd#4 f.toAlu
  | .setp f => encodeSetp f

/-! The length of an instruction by its form (R75). -/

/-- Lengths of the three-operand forms (R110, R150). -/
def AluForm.len : AluForm → Nat
  | .r1r2i8 _ _ _ => 3
  | .r1r2i16 _ _ _ => 4
  | .r2r2i8 _ _ => 3
  | .r2r2i16 _ _ => 4
  | .r2r2r1 _ _ => 3
  | .r3r2r1 _ _ _ => 3

/-- Lengths of the comparison forms (R100). -/
def CmpForm.len : CmpForm → Nat
  | .r2i8 _ _ => 3
  | .r2i16 _ _ => 4
  | .r2r1 _ _ => 3

/-- Lengths of the unary forms (R130). -/
def UnaryForm.len : UnaryForm → Nat
  | .r1r2 _ _ => 3
  | .r2r2 _ => 2

/-- Lengths of the immediate-load forms (R140). -/
def ImmForm.len : ImmForm → Nat
  | .r2i8 _ _ => 3
  | .r2i16 _ _ => 4

/-- Length of every `xbit` form (R180). -/
def XbitForm.len : XbitForm → Nat
  | .r1r2i8 _ _ _ => 3
  | .r3r2r1 _ _ _ => 3
  | .r2flagsi8 _ _ => 3
  | .r1flagsr2 _ _ => 3

/-- Lengths of the `bset`, `bclr`, `btgl` forms (R181). -/
def BitForm.len : BitForm → Nat
  | .r2i8 _ _ => 3
  | .r2r1 _ _ => 3
  | .flagsi8 _ => 3
  | .flagsr2 _ => 2

/-- Length of every `setp` form (R193). -/
def SetpForm.len : SetpForm → Nat
  | .r2i8 _ _ => 3
  | .r2r1 _ _ => 3

/-- Length of `clear` and `setf` (R143, R144). -/
def oneRegLen : Nat := 2

/-- The length in bytes of an instruction (R70, R75). -/
def Instr.len : Instr → Nat
  | .cmpu _ f => f.len
  | .cmps _ f => f.len
  | .cmp _ f => f.len
  | .add _ f => f.len
  | .adc _ f => f.len
  | .sub _ f => f.len
  | .sbb _ f => f.len
  | .shl _ f => f.toAlu.len
  | .shr _ f => f.toAlu.len
  | .sar _ f => f.toAlu.len
  | .shlc _ f => f.toAlu.len
  | .shrc _ f => f.toAlu.len
  | .not _ f => f.len
  | .neg _ f => f.len
  | .movf _ f => f.len
  | .movReg _ f => f.len
  | .hswap _ f => f.len
  | .movImm f => f.len
  | .sethi f => f.len
  | .clear _ _ => oneRegLen
  | .setf _ _ => oneRegLen
  | .mulu f => f.len
  | .muls f => f.len
  | .sext f => f.toAlu.len
  | .extr f => f.toAlu.len
  | .extrs f => f.toAlu.len
  | .ins f => f.toAlu.len
  | .and f => f.len
  | .or f => f.len
  | .xor f => f.len
  | .xbit f => f.len
  | .bset f => f.len
  | .bclr f => f.len
  | .btgl f => f.len
  | .div f => f.toAlu.len
  | .mod f => f.toAlu.len
  | .setp f => f.len

/-! The opcode table's numbering of an instruction's bits (R76). -/

/-- The four bytes, low byte first, of the `nbits` low bits of `w` (R76); every bit above them is 0. -/
def tableBytes (nbits w : Nat) : List Byte :=
  [BitVec.ofNat 8 (w % 2 ^ nbits), BitVec.ofNat 8 (w % 2 ^ nbits / 2 ^ 8),
   BitVec.ofNat 8 (w % 2 ^ nbits / 2 ^ 16), BitVec.ofNat 8 (w % 2 ^ nbits / 2 ^ 24)]

/-- The instruction the decoder reads from an instruction whose bits, numbered as spec/opcode_table.json numbers
them, are `w`; on the version of `Config.default`, so the shared encoding of R66 reads as `mov`. -/
def decodeTableWord (nbits w : Nat) : Option Instr :=
  match decode Config.default.falconVersion (tableBytes nbits w) with
  | .ok i => some i
  | .error _ => none

end Sys2Proof
end

