-- ==== Sys2Proof/Machine/State.lean ====
section
/-! DEFINITION. The machine's state (10_state.md), its state at the start of a run (R33, R220, R221), and the
reasons a step can stop. -/

namespace Sys2Proof.Machine

/-- The code image (R41), as (byte offset, byte) pairs with strictly rising offsets; an offset that is not
listed holds no byte. -/
structure Memory where
  cells : List Host.Cell
deriving DecidableEq, Repr

/-- All the state of the machine: R20, R25 and R30, and no other (R31). The code image and the parameters, which
R32 calls parameters of the step relation, are carried here because a step takes nothing but a state (log 3). -/
structure State where
  /-- The general registers `$r0` to `$r15` (R20). -/
  regs : Vector Word 16
  /-- `$flags`, 32 bits of plain storage (R25). -/
  flags : Word
  /-- The byte offset in the code image of the next instruction: a natural number that never wraps (R30). -/
  pc : Nat
  /-- The code image (R41). -/
  code : Memory
  /-- `FALCON_VERSION`, `FLAGS_DEFINED_MASK`, `INS_OOB` (R32). -/
  config : Config
deriving DecidableEq, Repr

/-- Why the machine stops although nothing was refused. No instruction raises a fault (R200). -/
inductive Fault where
  /-- Raised by the step alone, where `pc = length(code)`: the normal end of a run (R228), the state before the
  step being final. Safe: nothing is claimed of what the chip does after the image (log 6). -/
  | endOfRun
deriving DecidableEq, Repr

/-- Verdicts of the spec that it gives no meaning (R16, R202); none is an event of the hardware. -/
inductive Refusal where
  /-- An arm of `exec` whose instruction has no meaning yet; no arm answers it now. Safe. -/
  | notModelled (mnemonic : String)
  /-- Raised by decoding: an opcode, or an opcode and subopcode pair, that R63 does not list (R78). Safe. -/
  | notAnInstruction
  /-- Raised by decoding: the image has fewer bytes left than the instruction needs (R41). Safe. -/
  | runsPastCodeImage
  /-- Raised by decoding: a bit that carries no field is 1 (R77). Safe. -/
  | unusedBitsSet
  /-- Raised by decoding, and by `cmp`, `mov` (register), `setf`, `extr`, `extrs`, `ins`, `div`, `mod` on v0 and
  `movf` on v3+: the instruction does not exist on this version (R66). Safe. -/
  | notPresentOnVersion
  /-- Raised by `xbit`, `bset`, `bclr`, `btgl`, `setp` on a `$flags` bit outside `FLAGS_DEFINED_MASK`, only under
  the conservative reading of R25. Safe. -/
  | flagsBitOutsideMask
  /-- Raised by `ins` with its bitfield out of bounds, only under `INS_OOB = refuse` (R164). Safe. -/
  | insOutOfBounds
deriving DecidableEq, Repr

/-- What one instruction, or one step, answers (R16). -/
abbrev Result := Host.Outcome State Fault Refusal

/-- The state at the start of a run: `pc` at the spec's default 0 (R33, R221), no code image loaded, the
parameters at their defaults. R33 gives no value for a register or a flag: zero is the model's choice.
DESIGN CHOICE (log 1), unsafe: a claim may not rest on those zeros. -/
def State.reset : State where
  regs := Vector.replicate 16 0
  flags := 0
  pc := 0
  code := ⟨[]⟩
  config := Config.default

end Sys2Proof.Machine
end

