-- ==== Sys2Proof/Machine/Ops.lean ====
section
/-! DEFINITION. The named operations over the code image, the registers and `pc`, which every meaning goes
through, and the fetch of an instruction's bytes. -/

namespace Sys2Proof.Machine

/-! The code image (R41). -/

/-- The byte listed at offset `a`, if any. -/
def cellAt (a : Nat) : List Host.Cell → Option Byte
  | [] => none
  | c :: rest => if c.1 = a then some c.2 else cellAt a rest

/-- `CodeRead(a)` (R15, R41): the byte at offset `a`, or none where the image has no byte. -/
def Memory.read (m : Memory) (a : Nat) : Option Byte := cellAt a m.cells

/-- Put byte `b` at offset `a`, keeping the offsets in order. -/
def putCell (a : Nat) (b : Byte) : List Host.Cell → List Host.Cell
  | [] => [(a, b)]
  | c :: rest =>
    if a < c.1 then (a, b) :: c :: rest
    else if a = c.1 then (a, b) :: rest
    else c :: putCell a b rest

/-- Store one byte. No instruction does this (R40, R50); it serves loading a program from outside. -/
def Memory.write (m : Memory) (a : Nat) (b : Byte) : Memory := ⟨putCell a b m.cells⟩

/-- Store bytes at consecutive offsets from `a`. -/
def Memory.writeBytes (m : Memory) (a : Nat) : List Byte → Memory
  | [] => m
  | b :: rest => (m.write a b).writeBytes (a + 1) rest

/-- One past the last listed offset. -/
def cellsEnd : List Host.Cell → Nat
  | [] => 0
  | c :: rest => max (c.1 + 1) (cellsEnd rest)

/-- `length(code)` (R41): one past the last offset that holds a byte. -/
def Memory.size (m : Memory) : Nat := cellsEnd m.cells

/-- The canonical form: offsets strictly rising. An unlisted offset holds no byte, so no entry can equal what an
unlisted offset reads as. -/
abbrev Memory.wf (m : Memory) : Prop := m.cells.Pairwise (fun c d => c.1 < d.1)

/-- A byte string as a code image, from offset 0 (R41). -/
def Memory.ofBytes (bytes : List Byte) : Memory := Memory.writeBytes ⟨[]⟩ 0 bytes

/-! Registers, `$flags` and `pc`. -/

/-- `x[i]`, the value of `$r<i>` (R12). -/
def State.reg (s : State) (i : Reg) : Word := s.regs[i.val]

/-- `x[i] <- v`, all 32 bits (R12). -/
def State.setReg (s : State) (i : Reg) (v : Word) : State := { s with regs := s.regs.set i.val v }

/-- `flags <- v`, all 32 bits (R13). -/
def State.setFlags (s : State) (v : Word) : State := { s with flags := v }

/-- `pc <- pc + len`, which every instruction does after its own writes (R29). -/
def State.advance (s : State) (len : Nat) : State := { s with pc := s.pc + len }

/-- `isV0` of the version the state carries (R2). -/
def State.isV0 (s : State) : Bool := s.config.falconVersion.isV0

/-- An instruction of length `len` completes in `s` (R29, R213). -/
def State.done (s : State) (len : Nat) : Result := .next (s.advance len)

/-- The meaning of an instruction present on v3+ only: refused when `isV0` (R66, D7). -/
def onlyV3plus (s : State) (meaning : Result) : Result :=
  if s.isV0 then .refused .notPresentOnVersion else meaning

/-- The meaning of an instruction present on v0 only (R66, R133). -/
def onlyV0 (s : State) (meaning : Result) : Result :=
  if s.isV0 then meaning else .refused .notPresentOnVersion

/-- A `$flags` bit is in use: every bit is plain storage, unless the conservative reading of R25 is chosen and the
bit is outside `FLAGS_DEFINED_MASK`. -/
def State.flagsBitUsable (s : State) (bit : Nat) : Bool :=
  match s.config.flagsOutside with
  | .plainStorage => true
  | .refuse => s.config.flagsDefinedMask.getLsbD bit

/-- An access to one bit of `$flags` as an operand (R25, R26). -/
def onFlagsBit (s : State) (bit : Nat) (meaning : Result) : Result :=
  if s.flagsBitUsable bit then meaning else .refused .flagsBitOutsideMask

/-! Taking an exception: there is no such operation. No instruction in scope raises an exception (R200), and the
spec describes no entry, no saved register and no return, and forbids inventing them (R205, R206). -/

/-! Fetch (R80). -/

/-- The bytes of the image from offset `a` on, up to `n` of them, ending before the first offset without a byte. -/
def Memory.readUpTo (m : Memory) (a : Nat) : Nat → List Byte
  | 0 => []
  | n + 1 =>
    match m.read a with
    | none => []
    | some b => b :: m.readUpTo (a + 1) n

/-- The longest instruction, in bytes (R70). -/
def longestInstr : Nat := 4

/-- The bytes at `pc`, as many as the longest instruction has, or all that are left. -/
def State.fetchBytes (s : State) : List Byte := s.code.readUpTo s.pc longestInstr

/-- Decode the instruction at `pc` on the machine's version (R80). -/
def State.decodeAtPc (s : State) : Except DecodeError Instr := decode s.config.falconVersion s.fetchBytes

/-- The refusal that a failed decoding is (R80, R202). -/
def refusalOf : DecodeError → Refusal
  | .notAnInstruction => .notAnInstruction
  | .runsPastCodeImage => .runsPastCodeImage
  | .unusedBitsSet => .unusedBitsSet
  | .notPresentOnVersion => .notPresentOnVersion

/-- The run is over: `pc = length(code)` (R228). -/
def State.atEnd (s : State) : Bool := s.pc == s.code.size

end Sys2Proof.Machine
end

