-- ==== Sys2Proof/Machine/Operands.lean ====
section
/-! DEFINITION. Operand forms: what supplies each operand (R62), how an immediate is extended (R64, R65), and the
sized read and write of a register (R12, R22, R23). -/

namespace Sys2Proof.Machine

/-- The number of bits `sz` of an operation size (R7). -/
def width : Size → Nat
  | .b8 => 8
  | .b16 => 16
  | .b32 => 32

/-- `lo(v)`: the low `sz` bits (R12, R23). -/
def lo (sz : Size) (v : Word) : BitVec (width sz) := v.setWidth (width sz)

/-- `WriteSized(i, v)` applied to the register's old value: bits 31 down to `sz` stay (R12, R22). -/
def mergeSized (sz : Size) (old : Word) (v : BitVec (width sz)) : Word :=
  (old &&& ~~~((BitVec.allOnes (width sz)).setWidth 32)) ||| v.setWidth 32

/-- `WriteSized(i, v)` (R12, R22). -/
def State.writeSized (s : State) (sz : Size) (i : Reg) (v : BitVec (width sz)) : State :=
  s.setReg i (mergeSized sz (s.reg i) v)

/-- The word of a section's "Immediates:" line (R64). A truncated immediate is masked by the instruction's rule. -/
inductive Extension where
  | zero
  | sign
  | truncated
deriving DecidableEq, Repr

/-- `ext_32(imm)` (R64, R65). -/
def extend {m : Nat} (e : Extension) (imm : BitVec m) : Word :=
  match e with
  | .zero => imm.setWidth 32
  | .sign => imm.signExtend 32
  | .truncated => imm.setWidth 32

/-- `SRC2 & 0x1F`, a bit index 0 to 31 (R161, R180, R181, R193). -/
def bitIndex (v : Word) : Nat := (v &&& 0x1F#32).toNat

/-- The shift count: SRC2 masked to 3, 4 or 5 bits by the operation size (R120). -/
def shiftCount (sz : Size) (v : Word) : Nat :=
  match sz with
  | .b8 => (v &&& 0x7#32).toNat
  | .b16 => (v &&& 0xF#32).toNat
  | .b32 => (v &&& 0x1F#32).toNat

/-- `low`, bits 4:0 of a bitfield descriptor (R160). -/
def fieldLow (desc : Word) : Nat := (desc.extractLsb' 0 5).toNat

/-- `sizem1`, bits 9:5 of a bitfield descriptor (R160). -/
def fieldSizem1 (desc : Word) : Nat := (desc.extractLsb' 5 5).toNat

end Sys2Proof.Machine

namespace Sys2Proof

open Machine

/-- DST of a three-operand form (R62). -/
def AluForm.dst : AluForm → Reg
  | .r1r2i8 r1 _ _ => r1
  | .r1r2i16 r1 _ _ => r1
  | .r2r2i8 r2 _ => r2
  | .r2r2i16 r2 _ => r2
  | .r2r2r1 r2 _ => r2
  | .r3r2r1 r3 _ _ => r3

/-- The register that is SRC1 of a three-operand form: always `R2` (R62). -/
def AluForm.src1Reg : AluForm → Reg
  | .r1r2i8 _ r2 _ => r2
  | .r1r2i16 _ r2 _ => r2
  | .r2r2i8 r2 _ => r2
  | .r2r2i16 r2 _ => r2
  | .r2r2r1 r2 _ => r2
  | .r3r2r1 _ r2 _ => r2

/-- SRC1 of a three-operand form, 32 bits (R62). -/
def AluForm.src1 (f : AluForm) (s : State) : Word := s.reg (f.src1Reg)

/-- SRC2 of a three-operand form, extended to 32 bits (R62, R64). -/
def AluForm.src2 (f : AluForm) (e : Extension) (s : State) : Word :=
  match f with
  | .r1r2i8 _ _ imm => extend e imm
  | .r1r2i16 _ _ imm => extend e imm
  | .r2r2i8 _ imm => extend e imm
  | .r2r2i16 _ imm => extend e imm
  | .r2r2r1 _ r1 => s.reg r1
  | .r3r2r1 _ _ r1 => s.reg r1

/-- SRC1 of a comparison: `x[R2]` (R100). -/
def CmpForm.src1 (f : CmpForm) (s : State) : Word :=
  match f with
  | .r2i8 r2 _ => s.reg r2
  | .r2i16 r2 _ => s.reg r2
  | .r2r1 r2 _ => s.reg r2

/-- SRC2 of a comparison (R100). -/
def CmpForm.src2 (f : CmpForm) (e : Extension) (s : State) : Word :=
  match f with
  | .r2i8 _ imm => extend e imm
  | .r2i16 _ imm => extend e imm
  | .r2r1 _ r1 => s.reg r1

/-- DST of a unary form (R130). -/
def UnaryForm.dst : UnaryForm → Reg
  | .r1r2 r1 _ => r1
  | .r2r2 r2 => r2

/-- SRC of a unary form: `x[R2]` (R130). -/
def UnaryForm.src (f : UnaryForm) (s : State) : Word :=
  match f with
  | .r1r2 _ r2 => s.reg r2
  | .r2r2 r2 => s.reg r2

/-- DST of an immediate load: `$r[R2]` (R140). -/
def ImmForm.dst : ImmForm → Reg
  | .r2i8 r2 _ => r2
  | .r2i16 r2 _ => r2

/-- SRC of an immediate load (R140). -/
def ImmForm.src (f : ImmForm) (e : Extension) : Word :=
  match f with
  | .r2i8 _ imm => extend e imm
  | .r2i16 _ imm => extend e imm

/-- DST of `xbit` (R180). -/
def XbitForm.dst : XbitForm → Reg
  | .r1r2i8 r1 _ _ => r1
  | .r3r2r1 r3 _ _ => r3
  | .r2flagsi8 r2 _ => r2
  | .r1flagsr2 r1 _ => r1

/-- SRC1 of `xbit`: a register, or the whole of `$flags` (R26, R180). -/
def XbitForm.src1 (f : XbitForm) (s : State) : Word :=
  match f with
  | .r1r2i8 _ r2 _ => s.reg r2
  | .r3r2r1 _ r2 _ => s.reg r2
  | .r2flagsi8 _ _ => s.flags
  | .r1flagsr2 _ _ => s.flags

/-- SRC2 of `xbit`, the bit index before masking (R180). -/
def XbitForm.src2 (f : XbitForm) (s : State) : Word :=
  match f with
  | .r1r2i8 _ _ imm => extend .truncated imm
  | .r3r2r1 _ _ r1 => s.reg r1
  | .r2flagsi8 _ imm => extend .truncated imm
  | .r1flagsr2 _ r2 => s.reg r2

/-- The form reads `$flags` as SRC1 (R26). -/
def XbitForm.readsFlags : XbitForm → Bool
  | .r1r2i8 _ _ _ => false
  | .r3r2r1 _ _ _ => false
  | .r2flagsi8 _ _ => true
  | .r1flagsr2 _ _ => true

/-- DST of `bset`, `bclr`, `btgl`: a register, or `$flags` where there is none (R26, R181). -/
def BitForm.dst : BitForm → Option Reg
  | .r2i8 r2 _ => some r2
  | .r2r1 r2 _ => some r2
  | .flagsi8 _ => none
  | .flagsr2 _ => none

/-- SRC of `bset`, `bclr`, `btgl`, the bit index before masking (R181). -/
def BitForm.src (f : BitForm) (s : State) : Word :=
  match f with
  | .r2i8 _ imm => extend .truncated imm
  | .r2r1 _ r1 => s.reg r1
  | .flagsi8 imm => extend .truncated imm
  | .flagsr2 r2 => s.reg r2

/-- SRC1 of `setp`: `x[R2]` (R193). -/
def SetpForm.src1 (f : SetpForm) (s : State) : Word :=
  match f with
  | .r2i8 r2 _ => s.reg r2
  | .r2r1 r2 _ => s.reg r2

/-- SRC2 of `setp`, the bit index before masking (R193). -/
def SetpForm.src2 (f : SetpForm) (s : State) : Word :=
  match f with
  | .r2i8 _ imm => extend .truncated imm
  | .r2r1 _ r1 => s.reg r1

end Sys2Proof
end

