-- ==== Sys2Proof/Machine/Flags.lean ====
section
/-! DEFINITION. The result flags (R24), the carry and overflow functions of the source (R8 to R11), and the
ways instructions write the flags. Each writer maps the old `$flags` to the new and keeps every other bit (R13). -/

namespace Sys2Proof.Machine

/-- Bit number of `c` (R24). -/
def bitC : Nat := 8
/-- Bit number of `o` (R24). -/
def bitO : Nat := 9
/-- Bit number of `s` (R24). -/
def bitS : Nat := 10
/-- Bit number of `z` (R24). -/
def bitZ : Nat := 11

/-- `flags.c` (R13). -/
def flagC (fl : Word) : Bool := fl.getLsbD bitC
/-- `flags.o` (R13). -/
def flagO (fl : Word) : Bool := fl.getLsbD bitO
/-- `flags.s` (R13). -/
def flagS (fl : Word) : Bool := fl.getLsbD bitS
/-- `flags.z` (R13). -/
def flagZ (fl : Word) : Bool := fl.getLsbD bitZ

/-- A word with bit `i` replaced by `b` and every other bit kept (R13). -/
def putBit (i : Nat) (b : Bool) (v : Word) : Word :=
  if b then v ||| BitVec.twoPow 32 i else v &&& ~~~BitVec.twoPow 32 i

/-- `flags.c <- b` (R13). -/
def setC (b : Bool) (fl : Word) : Word := putBit bitC b fl
/-- `flags.o <- b` (R13). -/
def setO (b : Bool) (fl : Word) : Word := putBit bitO b fl
/-- `flags.s <- b` (R13). -/
def setS (b : Bool) (fl : Word) : Word := putBit bitS b fl
/-- `flags.z <- b` (R13). -/
def setZ (b : Bool) (fl : Word) : Word := putBit bitZ b fl

/-- `S(x)`, the sign bit at the operation size (R8). -/
def signOf {w : Nat} (x : BitVec w) : Bool := x.getLsbD (w - 1)

/-- `C(a, b, c)`: the carry of an addition from the high bits of its inputs and its result (R9). -/
def carryFn (a b c : Bool) : Bool :=
  if a && b then true
  else if (a || b) && !c then true
  else false

/-- `O(a, b, c)`: the signed overflow of an addition (R10). -/
def overflowFn (a b c : Bool) : Bool := a == b && a != c

/-- `C(S(x), S(y), S(r))` (R9). -/
def addCarry {w : Nat} (x y r : BitVec w) : Bool := carryFn (signOf x) (signOf y) (signOf r)

/-- `O(S(x), S(y), S(r))` (R10). -/
def addOverflow {w : Nat} (x y r : BitVec w) : Bool := overflowFn (signOf x) (signOf y) (signOf r)

/-- `!C(S(x), !S(y), S(r))`, the borrow of a subtraction (R11). -/
def subBorrow {w : Nat} (x y r : BitVec w) : Bool := !carryFn (signOf x) (!signOf y) (signOf r)

/-- `O(S(x), !S(y), S(r))`, the signed overflow of a subtraction (R11). -/
def subOverflow {w : Nat} (x y r : BitVec w) : Bool := overflowFn (signOf x) (!signOf y) (signOf r)

/-- `flags.s <- S(res); flags.z <- (res = 0)`. -/
def setSZ {w : Nat} (res : BitVec w) (fl : Word) : Word := setZ (res == 0#w) (setS (signOf res) fl)

/-- `flags.o <- o; flags.s <- S(res); flags.z <- (res = 0)` (R130, R144). -/
def setOSZ {w : Nat} (o : Bool) (res : BitVec w) (fl : Word) : Word := setSZ res (setO o fl)

/-- All four flags (R103, R110, R170). -/
def setCOSZ {w : Nat} (c o : Bool) (res : BitVec w) (fl : Word) : Word := setOSZ o res (setC c fl)

/-- The flags of a shift: `c` always, and on v3+ also `o <- 0`, `s`, `z` (R120). -/
def setShift {w : Nat} (isV0 : Bool) (c : Bool) (res : BitVec w) (fl : Word) : Word :=
  if isV0 then setC c fl else setCOSZ c false res fl

/-- The flags of a bitwise operation: none on v0, all four on v3+ (R170). -/
def setLogic (isV0 : Bool) (res : Word) (fl : Word) : Word :=
  if isV0 then fl else setCOSZ false false res fl

end Sys2Proof.Machine
end

