-- ==== Sys2Proof/Machine/AddSub.lean ====
section
/-! DEFINITION. Addition and subtraction: `add`, `adc`, `sub`, `sbb` (41_addsub.md, R110 to R114). -/

namespace Sys2Proof.Machine

/-- Write the result of a sized three-operand operation and all four flags (R110). -/
def finishAddSub (sz : Size) (f : AluForm) (c o : Bool) (res : BitVec (width sz)) (s : State) : Result :=
  ((s.writeSized sz f.dst res).setFlags (setCOSZ c o res s.flags)).done f.len

/-- `flags.c` as a `sz`-bit carry or borrow in, 0 or 1 (R112, R114). -/
def carryIn (sz : Size) (s : State) : BitVec (width sz) := (BitVec.ofBool (flagC s.flags)).setWidth (width sz)

/-- `add` (R111). -/
def execAdd (sz : Size) (f : AluForm) (s : State) : Result :=
  let a := lo sz (f.src1 s)
  let b := lo sz (f.src2 .zero s)
  let res := a + b
  finishAddSub sz f (addCarry a b res) (addOverflow a b res) res s

/-- `adc` (R112): the carry in is the old `c`. -/
def execAdc (sz : Size) (f : AluForm) (s : State) : Result :=
  let a := lo sz (f.src1 s)
  let b := lo sz (f.src2 .zero s)
  let res := a + b + carryIn sz s
  finishAddSub sz f (addCarry a b res) (addOverflow a b res) res s

/-- `sub` (R113). -/
def execSub (sz : Size) (f : AluForm) (s : State) : Result :=
  let a := lo sz (f.src1 s)
  let b := lo sz (f.src2 .zero s)
  let res := a - b
  finishAddSub sz f (subBorrow a b res) (subOverflow a b res) res s

/-- `sbb` (R114): the borrow in is the old `c`. -/
def execSbb (sz : Size) (f : AluForm) (s : State) : Result :=
  let a := lo sz (f.src1 s)
  let b := lo sz (f.src2 .zero s)
  let res := a - b - carryIn sz s
  finishAddSub sz f (subBorrow a b res) (subOverflow a b res) res s

end Sys2Proof.Machine
end

