-- ==== Sys2Proof/Machine/Bit.lean ====
section
/-! DEFINITION. Single-bit operations: `xbit`, `bset`, `bclr`, `btgl` (48_bit.md, R180 to R184). -/

namespace Sys2Proof.Machine

/-- `xbit` on v0 (R180): the bit replaces bit 0 of the destination; no flag. -/
def xbitV0 (f : XbitForm) (b : Bool) (s : State) : Result :=
  (s.setReg f.dst (putBit 0 b (s.reg f.dst))).done f.len

/-- `xbit` on v3+ (R180): the destination is the bit, `s <- 0`, `z <- (b = 0)`. -/
def xbitV3plus (f : XbitForm) (b : Bool) (s : State) : Result :=
  ((s.setReg f.dst ((BitVec.ofBool b).setWidth 32)).setFlags (setZ (!b) (setS false s.flags))).done f.len

/-- `xbit` (R180): extract a single bit of a register or of `$flags`. -/
def execXbit (f : XbitForm) (s : State) : Result :=
  let bit := bitIndex (f.src2 s)
  let b := (f.src1 s).getLsbD bit
  let meaning := if s.isV0 then xbitV0 f b s else xbitV3plus f b s
  if f.readsFlags then onFlagsBit s bit meaning else meaning

/-- Replace DST by `op DST bit`, DST being a register or the whole of `$flags` (R181). -/
def modifyBit (op : Word → Nat → Word) (f : BitForm) (s : State) : Result :=
  let bit := bitIndex (f.src s)
  match f.dst with
  | some r => (s.setReg r (op (s.reg r) bit)).done f.len
  | none => onFlagsBit s bit ((s.setFlags (op s.flags bit)).done f.len)

/-- `bset` (R182). -/
def execBset (f : BitForm) (s : State) : Result := modifyBit (fun v bit => v ||| BitVec.twoPow 32 bit) f s

/-- `bclr` (R183). -/
def execBclr (f : BitForm) (s : State) : Result := modifyBit (fun v bit => v &&& ~~~BitVec.twoPow 32 bit) f s

/-- `btgl` (R184). -/
def execBtgl (f : BitForm) (s : State) : Result := modifyBit (fun v bit => v ^^^ BitVec.twoPow 32 bit) f s

end Sys2Proof.Machine
end

