-- ==== Sys2Proof/Machine/Bitfield.lean ====
section
/-! DEFINITION. Sign extension and bitfields: `sext`, `extr`, `extrs`, `ins` (46_sext_bitfield.md, R160 to R164).
Masks of the full width are all ones (R14, D19). -/

namespace Sys2Proof.Machine

/-- `2^n - 1` as a word: `n` low bits set, all of them when `n` is 32 (R14, R162, R164). -/
def lowMask (n : Nat) : Word := BitVec.ofNat 32 (2 ^ n - 1)

/-- `sext` (R161): bits above the index are copies of the indexed bit; `s` and `z` on every version. -/
def execSext (f : ShiftForm) (s : State) : Result :=
  let bit := bitIndex (f.toAlu.src2 .truncated s)
  let res : Word := ((f.toAlu.src1 s).extractLsb' 0 (bit + 1)).signExtend 32
  ((s.setReg f.toAlu.dst res).setFlags (setSZ res s.flags)).done f.toAlu.len

/-- The unsigned bitfield `(SRC1 >> low) & mask` of `extr` and `extrs` (R162, R163). -/
def bitfield (v desc : Word) : Word := v >>> fieldLow desc &&& lowMask (fieldSizem1 desc + 1)

/-- `extr` (R162), v3+ only: `s <- 0`, `z` from the field. -/
def execExtr (f : FieldForm) (s : State) : Result :=
  let bf := bitfield (f.toAlu.src1 s) (f.toAlu.src2 .zero s)
  onlyV3plus s (((s.setReg f.toAlu.dst bf).setFlags (setZ (bf == 0) (setS false s.flags))).done f.toAlu.len)

/-- `extrs` (R163), v3+ only. The sign bit's index wraps modulo 32 where the field runs past bit 31: the source's
pseudocode, which it advises against depending on (D15, log 8). -/
def execExtrs (f : FieldForm) (s : State) : Result :=
  let v := f.toAlu.src1 s
  let desc := f.toAlu.src2 .zero s
  let fill := v.getLsbD ((fieldLow desc + fieldSizem1 desc) % 32)
  let bf := bitfield v desc
  let res := if fill then bf ||| ~~~lowMask (fieldSizem1 desc + 1) else bf
  onlyV3plus s (((s.setReg f.toAlu.dst res).setFlags (setZ (res == 0) (setS fill s.flags))).done f.toAlu.len)

/-- What `ins` does out of bounds (R164): nothing but the advance, or a refusal, by `INS_OOB`. -/
def insOutside (len : Nat) (s : State) : Result :=
  match s.config.insOob with
  | .nop => s.done len
  | .refuse => .refused .insOutOfBounds

/-- `ins` (R164), v3+ only: the low bits of SRC1 replace a field of the destination; no flag. -/
def execIns (f : InsForm) (s : State) : Result :=
  let desc := f.toAlu.src2 .zero s
  let low := fieldLow desc
  let size := fieldSizem1 desc + 1
  let old := s.reg f.toAlu.dst
  let res := (old &&& ~~~(lowMask size <<< low)) ||| (f.toAlu.src1 s &&& lowMask size) <<< low
  onlyV3plus s
    (if low + size ≤ 32 then (s.setReg f.toAlu.dst res).done f.toAlu.len else insOutside f.toAlu.len s)

end Sys2Proof.Machine
end

