-- ==== Sys2Proof/Machine/Compare.lean ====
section
/-! DEFINITION. Comparison: `cmpu`, `cmps`, `cmp` (40_compare.md, R100 to R103). They write flags only. -/

namespace Sys2Proof.Machine

/-- `cmpu` (R101): `c` is the borrow, `z` the equality; the immediate is zero-extended. -/
def execCmpu (sz : Size) (f : CmpForm) (s : State) : Result :=
  let a := lo sz (f.src1 s)
  let b := lo sz (f.src2 .zero s)
  let diff := a - b
  (s.setFlags (setC (subBorrow a b diff) (setZ (diff == 0) s.flags))).done f.len

/-- `cmps` (R102): `c` is the signed less-than, overflow xor sign; the immediate is sign-extended. -/
def execCmps (sz : Size) (f : CmpForm) (s : State) : Result :=
  let a := lo sz (f.src1 s)
  let b := lo sz (f.src2 .sign s)
  let diff := a - b
  (s.setFlags (setC (subOverflow a b diff ^^ signOf diff) (setZ (diff == 0) s.flags))).done f.len

/-- `cmp` (R103), v3+ only: all four flags of a subtraction; the immediate is sign-extended. -/
def execCmp (sz : Size) (f : CmpForm) (s : State) : Result :=
  let a := lo sz (f.src1 s)
  let b := lo sz (f.src2 .sign s)
  let diff := a - b
  onlyV3plus s
    ((s.setFlags (setCOSZ (subBorrow a b diff) (subOverflow a b diff) diff s.flags)).done f.len)

end Sys2Proof.Machine
end

