-- ==== Sys2Proof/Machine/DivSetp.lean ====
section
/-! DEFINITION. Division, remainder and setting predicates: `div`, `mod`, `setp` (49_div_setp.md, R190 to R193). -/

namespace Sys2Proof.Machine

/-- `dres` (R190): the unsigned quotient, all ones for a divisor of 0. No exception (R200). -/
def quotient (a b : Word) : Word := if b = 0#32 then 0xFFFFFFFF#32 else a / b

/-- `div` (R191), v3+ only; no flag. -/
def execDiv (f : FieldForm) (s : State) : Result :=
  let a := f.toAlu.src1 s
  let b := f.toAlu.src2 .zero s
  onlyV3plus s ((s.setReg f.toAlu.dst (quotient a b)).done f.toAlu.len)

/-- `mod` (R192), v3+ only; no flag. -/
def execMod (f : FieldForm) (s : State) : Result :=
  let a := f.toAlu.src1 s
  let b := f.toAlu.src2 .zero s
  onlyV3plus s ((s.setReg f.toAlu.dst (a - quotient a b * b)).done f.toAlu.len)

/-- `setp` (R193): one bit of `$flags` takes bit 0 of SRC1. -/
def execSetp (f : SetpForm) (s : State) : Result :=
  let bit := bitIndex (f.src2 s)
  let v := (s.flags &&& ~~~BitVec.twoPow 32 bit) ||| (f.src1 s &&& 1#32) <<< bit
  onFlagsBit s bit ((s.setFlags v).done f.len)

end Sys2Proof.Machine
end

