-- ==== Sys2Proof/Machine/LoadImm.lean ====
section
/-! DEFINITION. `mov` (immediate), `sethi`, `clear`, `setf` (44_loadimm_clear_setf.md, R140 to R144). -/

namespace Sys2Proof.Machine

/-- `mov` (immediate) (R141): the sign-extended immediate; no flag. -/
def execMovImm (f : ImmForm) (s : State) : Result := (s.setReg f.dst (f.src .sign)).done f.len

/-- `sethi` (R142): the zero-extended immediate in the high half, the low half kept; no flag. -/
def execSethi (f : ImmForm) (s : State) : Result :=
  (s.setReg f.dst ((s.reg f.dst &&& 0x0000FFFF#32) ||| f.src .zero <<< 16)).done f.len

/-- `clear` (R143): a sized write of 0; no flag. -/
def execClear (sz : Size) (r2 : Reg) (s : State) : Result := (s.writeSized sz r2 0).done oneRegLen

/-- `setf` (R144), v3+ only: `o <- 0`, and `s`, `z` from the value. -/
def execSetf (sz : Size) (r2 : Reg) (s : State) : Result :=
  onlyV3plus s ((s.setFlags (setOSZ false (lo sz (s.reg r2)) s.flags)).done oneRegLen)

end Sys2Proof.Machine
end

