-- ==== Sys2Proof/Machine/Logic.lean ====
section
/-! DEFINITION. Bitwise operations: `and`, `or`, `xor` (47_logic.md, R170 to R173). Flags on v3+ only. -/

namespace Sys2Proof.Machine

/-- Write the result of a bitwise operation and its flags (R170). -/
def finishLogic (f : AluForm) (res : Word) (s : State) : Result :=
  ((s.setReg f.dst res).setFlags (setLogic s.isV0 res s.flags)).done f.len

/-- `and` (R171). -/
def execAnd (f : AluForm) (s : State) : Result := finishLogic f (f.src1 s &&& f.src2 .zero s) s

/-- `or` (R172). -/
def execOr (f : AluForm) (s : State) : Result := finishLogic f (f.src1 s ||| f.src2 .zero s) s

/-- `xor` (R173). -/
def execXor (f : AluForm) (s : State) : Result := finishLogic f (f.src1 s ^^^ f.src2 .zero s) s

end Sys2Proof.Machine
end

