-- ==== Sys2Proof/Machine/Mul.lean ====
section
/-! DEFINITION. Multiplication 16 x 16 -> 32: `mulu`, `muls` (45_mul.md, R150 to R152). No flag is written. -/

namespace Sys2Proof.Machine

/-- `mulu` (R151): unsigned product of the low halves; the immediate is zero-extended. -/
def execMulu (f : AluForm) (s : State) : Result :=
  let s1 := f.src1 s &&& 0xFFFF#32
  let s2 := f.src2 .zero s &&& 0xFFFF#32
  (s.setReg f.dst (s1 * s2)).done f.len

/-- The low 16 bits of an operand as a signed number (R152). -/
def signedHalf (v : Word) : Word := (v.setWidth 16).signExtend 32

/-- `muls` (R152): signed product of the low halves; the immediate is sign-extended. -/
def execMuls (f : AluForm) (s : State) : Result :=
  (s.setReg f.dst (signedHalf (f.src1 s) * signedHalf (f.src2 .sign s))).done f.len

end Sys2Proof.Machine
end

