-- ==== Sys2Proof/Machine/Shift.lean ====
section
/-! DEFINITION. Shifts: `shl`, `shr`, `sar`, `shlc`, `shrc` (42_shift.md, R120 to R125). The count is below the
operation size; a count of 0 clears `c`. -/

namespace Sys2Proof.Machine

/-- SRC1 of a shift, at the operation size (R120). -/
def shiftValue (sz : Size) (f : ShiftForm) (s : State) : BitVec (width sz) := lo sz (f.toAlu.src1 s)

/-- `shcnt` (R120). -/
def shiftAmount (sz : Size) (f : ShiftForm) (s : State) : Nat := shiftCount sz (f.toAlu.src2 .truncated s)

/-- The last bit shifted out to the left, `SRC1[sz - shcnt]`, or 0 for a count of 0 (R121, R124). -/
def lastOutLeft {w : Nat} (a : BitVec w) (n : Nat) : Bool := n != 0 && a.getLsbD (w - n)

/-- The last bit shifted out to the right, `SRC1[shcnt - 1]`, or 0 for a count of 0 (R122, R123, R125). -/
def lastOutRight {w : Nat} (a : BitVec w) (n : Nat) : Bool := n != 0 && a.getLsbD (n - 1)

/-- Write a shift's result and its flags (R120). -/
def finishShift (sz : Size) (f : ShiftForm) (c : Bool) (res : BitVec (width sz)) (s : State) : Result :=
  ((s.writeSized sz f.toAlu.dst res).setFlags (setShift s.isV0 c res s.flags)).done f.toAlu.len

/-- The old carry as a single bit at position `i` (R124, R125). -/
def carryBit (sz : Size) (i : Nat) (s : State) : BitVec (width sz) :=
  (BitVec.ofBool (flagC s.flags)).setWidth (width sz) <<< i

/-- `shl` (R121). -/
def execShl (sz : Size) (f : ShiftForm) (s : State) : Result :=
  let a := shiftValue sz f s
  let n := shiftAmount sz f s
  finishShift sz f (lastOutLeft a n) (a <<< n) s

/-- `shr` (R122): zeros enter at the top. -/
def execShr (sz : Size) (f : ShiftForm) (s : State) : Result :=
  let a := shiftValue sz f s
  let n := shiftAmount sz f s
  finishShift sz f (lastOutRight a n) (a >>> n) s

/-- `sar` (R123): ones enter at the top when the sign bit is 1. -/
def execSar (sz : Size) (f : ShiftForm) (s : State) : Result :=
  let a := shiftValue sz f s
  let n := shiftAmount sz f s
  let fill := if signOf a && n != 0 then BitVec.allOnes (width sz) <<< (width sz - n) else 0#(width sz)
  finishShift sz f (lastOutRight a n) (a >>> n ||| fill) s

/-- `shlc` (R124): the highest of the bits shifted in at the bottom is the old carry. -/
def execShlc (sz : Size) (f : ShiftForm) (s : State) : Result :=
  let a := shiftValue sz f s
  let n := shiftAmount sz f s
  let cin := if n = 0 then 0#(width sz) else carryBit sz (n - 1) s
  finishShift sz f (lastOutLeft a n) (a <<< n ||| cin) s

/-- `shrc` (R125): the lowest of the bits shifted in at the top is the old carry. -/
def execShrc (sz : Size) (f : ShiftForm) (s : State) : Result :=
  let a := shiftValue sz f s
  let n := shiftAmount sz f s
  let cin := if n = 0 then 0#(width sz) else carryBit sz (width sz - n) s
  finishShift sz f (lastOutRight a n) (a >>> n ||| cin) s

end Sys2Proof.Machine
end

