-- ==== Sys2Proof/Machine/Unary.lean ====
section
/-! DEFINITION. Unary operations: `not`, `neg`, `movf` (v0), `mov` (register, v3+), `hswap` (43_unary.md, R130 to
R135). None writes `c`. -/

namespace Sys2Proof.Machine

/-- Write the result of a unary operation and the flags `o`, `s`, `z` (R130). -/
def finishUnary (sz : Size) (f : UnaryForm) (o : Bool) (res : BitVec (width sz)) (s : State) : Result :=
  ((s.writeSized sz f.dst res).setFlags (setOSZ o res s.flags)).done f.len

/-- `not` (R131). -/
def execNot (sz : Size) (f : UnaryForm) (s : State) : Result :=
  finishUnary sz f false (~~~lo sz (f.src s)) s

/-- `neg` (R132): `o` exactly when the result is `2^(sz-1)`. -/
def execNeg (sz : Size) (f : UnaryForm) (s : State) : Result :=
  let res := 0 - lo sz (f.src s)
  finishUnary sz f (res == BitVec.twoPow (width sz) (width sz - 1)) res s

/-- `movf` (R133), v0 only: a move that sets flags. -/
def execMovf (sz : Size) (f : UnaryForm) (s : State) : Result :=
  onlyV0 s (finishUnary sz f false (lo sz (f.src s)) s)

/-- `mov` (register) (R134), v3+ only: a move that writes no flag. -/
def execMovReg (sz : Size) (f : UnaryForm) (s : State) : Result :=
  onlyV3plus s ((s.writeSized sz f.dst (lo sz (f.src s))).done f.len)

/-- `hswap` (R135): the halves of the value change places. -/
def execHswap (sz : Size) (f : UnaryForm) (s : State) : Result :=
  let a := lo sz (f.src s)
  let h := width sz / 2
  finishUnary sz f false (a >>> h ||| a <<< h) s

end Sys2Proof.Machine
end

