-- ==== Sys2Proof/Machine/Dispatch.lean ====
section
/-! DEFINITION. The dispatch: one arm per instruction, one direct call of its meaning. -/

namespace Sys2Proof.Machine

def exec (i : Instr) (s : State) : Host.Outcome State Fault Refusal :=
  match i with
  | .cmpu sz f => Sys2Proof.Machine.execCmpu sz f s
  | .cmps sz f => Sys2Proof.Machine.execCmps sz f s
  | .cmp sz f => Sys2Proof.Machine.execCmp sz f s
  | .add sz f => Sys2Proof.Machine.execAdd sz f s
  | .adc sz f => Sys2Proof.Machine.execAdc sz f s
  | .sub sz f => Sys2Proof.Machine.execSub sz f s
  | .sbb sz f => Sys2Proof.Machine.execSbb sz f s
  | .shl sz f => Sys2Proof.Machine.execShl sz f s
  | .shr sz f => Sys2Proof.Machine.execShr sz f s
  | .sar sz f => Sys2Proof.Machine.execSar sz f s
  | .shlc sz f => Sys2Proof.Machine.execShlc sz f s
  | .shrc sz f => Sys2Proof.Machine.execShrc sz f s
  | .not sz f => Sys2Proof.Machine.execNot sz f s
  | .neg sz f => Sys2Proof.Machine.execNeg sz f s
  | .movf sz f => Sys2Proof.Machine.execMovf sz f s
  | .movReg sz f => Sys2Proof.Machine.execMovReg sz f s
  | .hswap sz f => Sys2Proof.Machine.execHswap sz f s
  | .movImm f => Sys2Proof.Machine.execMovImm f s
  | .sethi f => Sys2Proof.Machine.execSethi f s
  | .clear sz r2 => Sys2Proof.Machine.execClear sz r2 s
  | .setf sz r2 => Sys2Proof.Machine.execSetf sz r2 s
  | .mulu f => Sys2Proof.Machine.execMulu f s
  | .muls f => Sys2Proof.Machine.execMuls f s
  | .sext f => Sys2Proof.Machine.execSext f s
  | .extr f => Sys2Proof.Machine.execExtr f s
  | .extrs f => Sys2Proof.Machine.execExtrs f s
  | .ins f => Sys2Proof.Machine.execIns f s
  | .and f => Sys2Proof.Machine.execAnd f s
  | .or f => Sys2Proof.Machine.execOr f s
  | .xor f => Sys2Proof.Machine.execXor f s
  | .xbit f => Sys2Proof.Machine.execXbit f s
  | .bset f => Sys2Proof.Machine.execBset f s
  | .bclr f => Sys2Proof.Machine.execBclr f s
  | .btgl f => Sys2Proof.Machine.execBtgl f s
  | .div f => Sys2Proof.Machine.execDiv f s
  | .mod f => Sys2Proof.Machine.execMod f s
  | .setp f => Sys2Proof.Machine.execSetp f s

end Sys2Proof.Machine
end

