-- ==== Sys2Proof/Machine/Step.lean ====
section
/-! DEFINITION. One step of the machine (R80, R228), and the placing of an instruction where the next step
fetches it. -/

namespace Sys2Proof.Machine

/-- One step (R80): at the end of the image the run is over (R228); otherwise the instruction at `pc` is decoded
and executed, its advance of `pc` included (R29), or refused. -/
def step (s : State) : Host.Outcome State Fault Refusal :=
  if s.atEnd then .fault .endOfRun
  else
    match s.decodeAtPc with
    | .ok i => exec i s
    | .error e => .refused (refusalOf e)

/-- `s` with the instruction of opcode-table word `w` stored at `pc`, its bytes above `nbits` zero. It stands for
loading a program from outside (R41, R223, log 4). -/
def State.withFetchWord (s : State) (nbits w : Nat) : State :=
  { s with code := s.code.writeBytes s.pc (tableBytes nbits w) }

end Sys2Proof.Machine
end

