-- ==== Sys2Proof/Safety.lean ====
section
/-! DEFINITION. The terms in which claims about the machine are stated: the invariant of a run, what an
instruction leaves unchanged, which flags it may write, the comparison of two states, and the opcode map. -/

namespace Sys2Proof.Machine

/-- The invariant of every run (R41, R228): the image is in canonical form and `pc` has not passed its end. -/
def State.Inv (s : State) : Prop := s.code.wf ∧ s.pc ≤ s.code.size

/-- `t` is `s` but for the register `dst` (if any), the `$flags` bits in `bits`, and an advance of `pc` by `len`:
every other register, every other bit of `$flags`, every byte of the image and the parameters are as before. -/
structure OnlyChanges (s t : State) (dst : Option Reg) (bits : List Nat) (len : Nat) : Prop where
  regs : ∀ r, dst ≠ some r → t.reg r = s.reg r
  flags : ∀ j, j ∉ bits → t.flags.getLsbD j = s.flags.getLsbD j
  bytes : ∀ a, t.code.read a = s.code.read a
  size : t.code.size = s.code.size
  config : t.config = s.config
  pc : t.pc = s.pc + len

/-- A sized write of register `r` kept its bits 31 down to `sz` (R22). -/
def KeepsHigh (sz : Size) (r : Reg) (s t : State) : Prop :=
  ∀ j, width sz ≤ j → (t.reg r).getLsbD j = (s.reg r).getLsbD j

/-- The flags `s` and `z` of `t` are those of the result `res`. -/
def FlagsSZ {w : Nat} (t : State) (res : BitVec w) : Prop :=
  t.flags.getLsbD 10 = res.msb ∧ (t.flags.getLsbD 11 = true ↔ res = 0#w)

/-- The `$flags` bits a shift writes (R27, R120). -/
def shiftBits (s : State) : List Nat := if s.isV0 then [8] else [8, 9, 10, 11]

/-- The flags of `t` after a shift of `s` with last bit out `c` and result `res` (R120). -/
def ShiftFlags {w : Nat} (s t : State) (c : Bool) (res : BitVec w) : Prop :=
  t.flags.getLsbD 8 = c ∧ (s.isV0 = false → t.flags.getLsbD 9 = false ∧ FlagsSZ t res)

/-- The `$flags` bits an `and`, `or` or `xor` writes (R27, R170). -/
def logicBits (s : State) : List Nat := if s.isV0 then [] else [8, 9, 10, 11]

/-- The flags of `t` after a bitwise operation with result `res` (R170). -/
def LogicFlags (s t : State) (res : Word) : Prop :=
  s.isV0 = false → t.flags.getLsbD 8 = false ∧ t.flags.getLsbD 9 = false ∧ FlagsSZ t res

/-- Bit `n` of `$flags` may be accessed as an operand: always, unless the conservative reading of R25 is chosen. -/
def FlagsBitFree (s : State) (n : Nat) : Prop :=
  s.config.flagsOutside = .plainStorage ∨ s.config.flagsDefinedMask.getLsbD n = true

/-- The `$flags` bits an instruction may write in state `s`: the table of R27. -/
def flagsWritten (s : State) : Instr → List Nat
  | .cmpu _ _ => [8, 11]
  | .cmps _ _ => [8, 11]
  | .cmp _ _ => [8, 9, 10, 11]
  | .add _ _ => [8, 9, 10, 11]
  | .adc _ _ => [8, 9, 10, 11]
  | .sub _ _ => [8, 9, 10, 11]
  | .sbb _ _ => [8, 9, 10, 11]
  | .shl _ _ => shiftBits s
  | .shr _ _ => shiftBits s
  | .sar _ _ => shiftBits s
  | .shlc _ _ => shiftBits s
  | .shrc _ _ => shiftBits s
  | .not _ _ => [9, 10, 11]
  | .neg _ _ => [9, 10, 11]
  | .movf _ _ => [9, 10, 11]
  | .movReg _ _ => []
  | .hswap _ _ => [9, 10, 11]
  | .movImm _ => []
  | .sethi _ => []
  | .clear _ _ => []
  | .setf _ _ => [9, 10, 11]
  | .mulu _ => []
  | .muls _ => []
  | .sext _ => [10, 11]
  | .extr _ => [10, 11]
  | .extrs _ => [10, 11]
  | .ins _ => []
  | .and _ => logicBits s
  | .or _ => logicBits s
  | .xor _ => logicBits s
  | .xbit _ => if s.isV0 then [] else [10, 11]
  | .bset f => if f.dst = none then [(f.src s).toNat % 32] else []
  | .bclr f => if f.dst = none then [(f.src s).toNat % 32] else []
  | .btgl f => if f.dst = none then [(f.src s).toNat % 32] else []
  | .div _ => []
  | .mod _ => []
  | .setp f => [(f.src2 s).toNat % 32]

/-- The operation size of a sized instruction; none for an unsized one (R7, R61). -/
def opSize : Instr → Option Size
  | .cmpu sz _ => some sz
  | .cmps sz _ => some sz
  | .cmp sz _ => some sz
  | .add sz _ => some sz
  | .adc sz _ => some sz
  | .sub sz _ => some sz
  | .sbb sz _ => some sz
  | .shl sz _ => some sz
  | .shr sz _ => some sz
  | .sar sz _ => some sz
  | .shlc sz _ => some sz
  | .shrc sz _ => some sz
  | .not sz _ => some sz
  | .neg sz _ => some sz
  | .movf sz _ => some sz
  | .movReg sz _ => some sz
  | .hswap sz _ => some sz
  | .movImm _ => none
  | .sethi _ => none
  | .clear sz _ => some sz
  | .setf sz _ => some sz
  | .mulu _ => none
  | .muls _ => none
  | .sext _ => none
  | .extr _ => none
  | .extrs _ => none
  | .ins _ => none
  | .and _ => none
  | .or _ => none
  | .xor _ => none
  | .xbit _ => none
  | .bset _ => none
  | .bclr _ => none
  | .btgl _ => none
  | .div _ => none
  | .mod _ => none
  | .setp _ => none

/-- Two states agree on the low `sz` bits of every register, on `$flags` and on the parameters. -/
def AgreeBelow (sz : Size) (s s' : State) : Prop :=
  (∀ r, lo sz (s.reg r) = lo sz (s'.reg r)) ∧ s.flags = s'.flags ∧ s.config = s'.config

/-- A result with its next state, if any, changed by `g`. -/
def mapNext (g : State → State) : Result → Result
  | .next t => .next (g t)
  | .fault r => .fault r
  | .refused r => .refused r

/-- The same state on another hardware version. -/
def State.withVersion (s : State) (v : FalconVersion) : State :=
  { s with config := { s.config with falconVersion := v } }

/-- The same state at another `pc`. -/
def State.withPc (s : State) (p : Nat) : State := { s with pc := p }

/-- The image holds the bytes `bs` from `pc` on. -/
def State.HoldsAtPc (s : State) (bs : List Byte) : Prop :=
  ∀ k, k < bs.length → s.code.read (s.pc + k) = bs[k]?

/-! The opcode map as the spec tabulates it (R63, R72, R75, R77), beside the decoder and apart from it: the terms in
which claims about refused encodings are stated. -/

/-- Where the subopcode sits (R72). -/
inductive SubopcodePlace where
  | o1
  | o2
  | ol
  | o3
deriving DecidableEq, Repr

/-- The subopcode in the first three bytes of an instruction (R72). -/
def SubopcodePlace.read (p : SubopcodePlace) (b0 b1 b2 : Byte) : Nat :=
  match p with
  | .o1 => b0.toNat % 16
  | .o2 => b1.toNat % 16
  | .ol => b1.toNat % 64
  | .o3 => b2.toNat % 16

/-- One opcode of the map. -/
structure OpcodeRow where
  /-- The opcode (R61). -/
  number : Nat
  /-- The length of its instructions in bytes (R75). -/
  length : Nat
  /-- Where its subopcode sits (R75). -/
  place : SubopcodePlace
  /-- The bits of byte 1 that must be zero (R77). -/
  zero1 : Byte
  /-- The bits of byte 2 that must be zero (R77). -/
  zero2 : Byte
  /-- The subopcodes listed for it (R63). -/
  listed : List Nat
  /-- Those of them that are present on v3+ only (R66). -/
  v3plusOnly : List Nat
deriving DecidableEq, Repr

/-- The sized opcodes (R63, R75). -/
def sizedRows : List OpcodeRow :=
  [⟨0x10, 3, .o1, 0, 0, [0x0, 0x1, 0x2, 0x3, 0x4, 0x5, 0x6, 0xc, 0xd], []⟩,
   ⟨0x20, 4, .o1, 0, 0, [0x0, 0x1, 0x2, 0x3], []⟩,
   ⟨0x30, 3, .o2, 0, 0, [0x4, 0x5, 0x6], [0x6]⟩,
   ⟨0x31, 4, .o2, 0, 0, [0x4, 0x5, 0x6], [0x6]⟩,
   ⟨0x36, 3, .o2, 0, 0, [0x0, 0x1, 0x2, 0x3, 0x4, 0x5, 0x6, 0xc, 0xd], []⟩,
   ⟨0x37, 4, .o2, 0, 0, [0x0, 0x1, 0x2, 0x3], []⟩,
   ⟨0x38, 3, .o3, 0, 0xf0, [0x4, 0x5, 0x6], [0x6]⟩,
   ⟨0x39, 3, .o3, 0, 0xf0, [0x0, 0x1, 0x2, 0x3], []⟩,
   ⟨0x3b, 3, .o3, 0, 0xf0, [0x0, 0x1, 0x2, 0x3, 0x4, 0x5, 0x6, 0xc, 0xd], []⟩,
   ⟨0x3c, 3, .o3, 0, 0, [0x0, 0x1, 0x2, 0x3, 0x4, 0x5, 0x6, 0xc, 0xd], []⟩,
   ⟨0x3d, 2, .o2, 0, 0, [0x0, 0x1, 0x2, 0x3, 0x4, 0x5], [0x5]⟩]

/-- The unsized opcodes (R63, R75). -/
def unsizedRows : List OpcodeRow :=
  [⟨0xc0, 3, .o1, 0, 0, [0x0, 0x1, 0x2, 0x3, 0x4, 0x5, 0x6, 0x7, 0x8, 0xb, 0xc, 0xd], [0x3, 0x7, 0xb, 0xc, 0xd]⟩,
   ⟨0xe0, 4, .o1, 0, 0, [0x0, 0x1, 0x3, 0x4, 0x5, 0x6, 0x7, 0xb, 0xc, 0xd], [0x3, 0x7, 0xb, 0xc, 0xd]⟩,
   ⟨0xf0, 3, .o2, 0, 0, [0x0, 0x1, 0x2, 0x3, 0x4, 0x5, 0x6, 0x7, 0x9, 0xa, 0xb, 0xc], []⟩,
   ⟨0xf1, 4, .o2, 0, 0, [0x0, 0x1, 0x3, 0x4, 0x5, 0x6, 0x7], []⟩,
   ⟨0xf2, 3, .o2, 0, 0, [0x8], []⟩,
   ⟨0xf4, 3, .ol, 0xc0, 0, [0x31, 0x32, 0x33], []⟩,
   ⟨0xf9, 2, .o2, 0, 0, [0x9, 0xa, 0xb], []⟩,
   ⟨0xfa, 3, .o3, 0, 0xf0, [0x8], []⟩,
   ⟨0xfd, 3, .o3, 0, 0xf0, [0x0, 0x1, 0x2, 0x4, 0x5, 0x6, 0x9, 0xa, 0xb], []⟩,
   ⟨0xfe, 3, .o3, 0, 0xf0, [0xc], []⟩,
   ⟨0xff, 3, .o3, 0, 0, [0x0, 0x1, 0x2, 0x3, 0x4, 0x5, 0x6, 0x7, 0x8, 0xc, 0xd], [0x3, 0x7, 0xc, 0xd]⟩]

/-- The whole opcode map (R63). A sized opcode's number is below 0x40 and an unsized one's is 0xc0 or more (R61). -/
def opcodeRows : List OpcodeRow := sizedRows ++ unsizedRows

/-- The key that byte 0 selects (R80). -/
def opcodeKey (b0 : Byte) : Nat :=
  if b0.toNat / 64 = 3 then
    if b0.toNat / 16 = 15 then b0.toNat else b0.toNat / 16 * 16
  else if b0.toNat / 16 % 4 = 3 then b0.toNat % 64 else b0.toNat / 16 % 4 * 16

end Sys2Proof.Machine
end

