-- ==== Sys2Proof/Certificates/Slice0/Obligations.lean ====
section
/-! DEFINITION. The statements for the provers. In their order: the encoding; the machine as a whole; each
instruction's completion, result, flags and frame; what the conservative parameter values refuse; what the carry
and overflow flags mean. -/

open Sys2Proof Sys2Proof.Machine

/-! The encoding. -/

/-- Decoding the bytes of a well-formed instruction, whatever follows them, gives the instruction back
(30_encoding.md R70 to R76; the byte layout is the spec's general knowledge, log 10). -/
def Obligations.DecodeOfEncodeIsTheInstruction : Prop :=
  ∀ (v : FalconVersion) (i : Instr) (rest : List Byte),
    i.wellFormed v = true → decode v (encode i ++ rest) = .ok i

/-- Bytes that decode are the encoding of what they decode to, which the version has: each instruction has one
encoding (30_encoding.md R63, R75, R77). -/
def Obligations.EncodeOfDecodeIsTheBytes : Prop :=
  ∀ (v : FalconVersion) (bs : List Byte) (i : Instr),
    decode v bs = .ok i → i.wellFormed v = true ∧ bs.take i.len = encode i

/-- What decoding refuses, and by which name, in the order of the tests of R80: a byte 0 whose key is no opcode, a
sized key 0x00 among them (R78); an instruction cut short; a must-be-zero bit that is 1; a subopcode not listed for
its opcode (R78); an instruction that is present on v3+ only, on v0. Anything else decodes. The byte layout is the
spec's general knowledge (log 10), and the refusal the spec's own decision (log 15). -/
def Obligations.UnlistedEncodingsAreRefused : Prop :=
  ∀ (v : FalconVersion) (b0 : Byte) (rest : List Byte),
    let b1 := rest.getD 0 0
    let b2 := rest.getD 1 0
    (b0.toNat / 64 ≠ 3 → b0.toNat / 16 % 4 = 0 → decode v (b0 :: rest) = .error .notAnInstruction) ∧
    (opcodeKey b0 ∉ opcodeRows.map OpcodeRow.number → decode v (b0 :: rest) = .error .notAnInstruction) ∧
    (∀ row ∈ opcodeRows, row.number = opcodeKey b0 →
      let sub := row.place.read b0 b1 b2
      if rest.length + 1 < row.length then decode v (b0 :: rest) = .error .runsPastCodeImage
      else if b1 &&& row.zero1 ≠ 0 ∨ b2 &&& row.zero2 ≠ 0 then decode v (b0 :: rest) = .error .unusedBitsSet
      else if sub ∉ row.listed then decode v (b0 :: rest) = .error .notAnInstruction
      else if v.isV0 = true ∧ sub ∈ row.v3plusOnly then decode v (b0 :: rest) = .error .notPresentOnVersion
      else ∃ i, decode v (b0 :: rest) = .ok i)

/-- A must-be-zero bit that is 1 is refused: bits 7:4 of byte 2 under opcodes 0x38, 0x39, 0x3b (every size), 0xfa,
0xfd, 0xfe, and bits 7:6 of byte 1 under opcode 0xf4 (R77). -/
def Obligations.UnusedBitsAreRefused : Prop :=
  ∀ (v : FalconVersion) (b0 b1 b2 : Byte) (rest : List Byte),
    ((b0.toNat ∈ [0x38, 0x78, 0xb8, 0x39, 0x79, 0xb9, 0x3b, 0x7b, 0xbb, 0xfa, 0xfd, 0xfe] ∧ b2.toNat / 16 ≠ 0) ∨
      (b0.toNat = 0xf4 ∧ b1.toNat / 64 ≠ 0)) →
    decode v (b0 :: b1 :: b2 :: rest) = .error .unusedBitsSet

/-- An instruction cut short, at any byte before its end, is refused as running past the image (R80). -/
def Obligations.TruncatedInstructionIsRefused : Prop :=
  ∀ (v : FalconVersion) (bs : List Byte) (i : Instr) (n : Nat),
    decode v bs = .ok i → n < i.len → decode v (bs.take n) = .error .runsPastCodeImage

/-- How the version decides decoding (R66): the bytes that are a register `mov` on v3+ are the `movf` of the same
size and form on v0, and the other way round; any other instruction decoded on v3+ is, on v0, refused when it is
v3+ only, and itself when it is present on all versions. -/
def Obligations.VersionDecidesDecoding : Prop :=
  ∀ (k : Nat) (bs : List Byte),
    (∀ sz f, decode (.v3plus k) bs = .ok (.movReg sz f) ↔ decode .v0 bs = .ok (.movf sz f)) ∧
    (∀ i, decode (.v3plus k) bs = .ok i → (∀ sz f, i ≠ .movReg sz f) →
      (i.presence = .v3plusOnly → decode .v0 bs = .error .notPresentOnVersion) ∧
      (i.presence = .all → decode .v0 bs = .ok i))

/-- Words of the spec's examples decode to the instructions the examples name, one of each family. -/
def Obligations.ExampleWordsDecode : Prop :=
  decode (.v3plus 0) [0xb8, 0x21, 0x04] = .ok (.cmpu .b32 (.r2r1 2 1)) ∧
  decode (.v3plus 0) [0x10, 0x21, 0x01] = .ok (.add .b8 (.r1r2i8 1 2 0x01)) ∧
  decode (.v3plus 0) [0x9d, 0x21, 0x01] = .ok (.shrc .b32 (.r1r2i8 1 2 0x01)) ∧
  decode .v0 [0x79, 0x21, 0x02] = .ok (.movf .b16 (.r1r2 1 2)) ∧
  decode (.v3plus 0) [0xf1, 0x33, 0xad, 0xde] = .ok (.sethi (.r2i16 3 0xdead)) ∧
  decode (.v3plus 0) [0xff, 0x21, 0x30] = .ok (.mulu (.r3r2r1 3 2 1)) ∧
  decode (.v3plus 0) [0xeb, 0x21, 0xe4, 0x00] = .ok (.ins (.r1r2i16 1 2 0x00e4)) ∧
  decode (.v3plus 0) [0xe5, 0x21, 0x00, 0x80] = .ok (.or (.r1r2i16 1 2 0x8000)) ∧
  decode (.v3plus 0) [0xf4, 0x31, 0x08] = .ok (.bset (.flagsi8 0x08)) ∧
  decode (.v3plus 0) [0xff, 0x21, 0x3d] = .ok (.mod (.r3r2r1 3 2 1)) ∧
  decode (.v3plus 0) [0xf2, 0x28, 0x08] = .ok (.setp (.r2i8 2 0x08))

/-! The machine as a whole. -/

/-- Away from the end of the image, a step decodes the bytes at `pc` on the machine's version and is `exec` of the
instruction, whose advance of `pc` is its own (R29), or the refusal that the failed decoding is (R80). -/
def Obligations.StepRunsTheDecodedInstruction : Prop :=
  ∀ s : State, s.pc ≠ s.code.size →
    (∀ i, decode s.config.falconVersion s.fetchBytes = .ok i → step s = exec i s) ∧
    (∀ e, decode s.config.falconVersion s.fetchBytes = .error e → step s = .refused (refusalOf e))

/-- Where the image holds the encoding of an instruction that the version has, a step is `exec` of it. -/
def Obligations.StepRunsTheEncodedInstruction : Prop :=
  ∀ (s : State) (i : Instr), i.wellFormed s.config.falconVersion = true → s.HoldsAtPc (encode i) →
    step s = exec i s

/-- No instruction raises a fault (R200). -/
def Obligations.NoInstructionFaults : Prop :=
  ∀ (i : Instr) (s : State) (r : Fault), exec i s ≠ .fault r

/-- A step stops with a fault exactly at the end of the image, and that fault is the end of the run (R228; the
fault is the model's name for the normal end, log 6). -/
def Obligations.FaultExactlyAtTheEndOfTheImage : Prop :=
  ∀ (s : State) (r : Fault), step s = .fault r ↔ (s.pc = s.code.size ∧ r = .endOfRun)

/-- Under the spec's default parameters, every instruction the version has completes in every state and advances
`pc` by its length (R213, R29). -/
def Obligations.EveryInstructionOfTheVersionCompletes : Prop :=
  ∀ (i : Instr) (s : State), s.config.flagsOutside = .plainStorage → s.config.insOob = .nop →
    i.wellFormed s.config.falconVersion = true → ∃ t, exec i s = .next t ∧ t.pc = s.pc + i.len

/-- An instruction the version does not have is refused as such, in every state (R66). -/
def Obligations.AbsentInstructionIsRefused : Prop :=
  ∀ (i : Instr) (s : State), i.wellFormed s.config.falconVersion = false →
    exec i s = .refused .notPresentOnVersion

/-- A step keeps the invariant: the image stays canonical and `pc` never skips past its end (R228). -/
def Obligations.StepKeepsTheInvariant : Prop :=
  ∀ s t : State, s.Inv → step s = .next t → t.Inv

/-- The state at the start of a run has the invariant, with `pc` 0 and no image loaded. -/
def Obligations.ResetHasTheInvariant : Prop :=
  State.reset.Inv ∧ State.reset.pc = 0 ∧ ∀ a, State.reset.code.read a = none

/-- Every run of `k` steps advances `pc` by at least `2 * k` and stays in the image, so it has at most
`length(code) / 2` steps (R228). -/
def Obligations.EveryRunTerminates : Prop :=
  ∀ (k : Nat) (s t : State), s.pc ≤ s.code.size → Sys2Proof.core.run k s = .next t →
    s.pc + 2 * k ≤ t.pc ∧ t.pc ≤ s.code.size ∧ k ≤ s.code.size / 2

/-- No run changes the code image or a parameter (R41, R50, R32). -/
def Obligations.RunKeepsImageAndParameters : Prop :=
  ∀ (k : Nat) (s t : State), Sys2Proof.core.run k s = .next t → t.code = s.code ∧ t.config = s.config

/-- No instruction reads `pc` or writes it but by its advance: moving `pc` beforehand moves it afterwards and
changes nothing else (R29). -/
def Obligations.InstructionsDoNotReadPc : Prop :=
  ∀ (i : Instr) (s : State) (p : Nat),
    exec i (s.withPc p) = mapNext (fun t => t.withPc (p + i.len)) (exec i s)

/-- All versions of 3 and above step alike: the version matters only through `isV0` (R2). -/
def Obligations.VersionMattersOnlyThroughIsV0 : Prop :=
  ∀ (s : State) (k k' : Nat),
    step (s.withVersion (.v3plus k')) =
      mapNext (fun t => t.withVersion (.v3plus k')) (step (s.withVersion (.v3plus k)))

/-- Bits of source registers above the operation size have no effect on the result or on any flag (R23): a sized
instruction, run in two states that agree below the size, answers two states that agree below the size. -/
def Obligations.HighSourceBitsHaveNoEffect : Prop :=
  ∀ (i : Instr) (sz : Size) (s s' t : State), opSize i = some sz → AgreeBelow sz s s' → exec i s = .next t →
    ∃ t', exec i s' = .next t' ∧ AgreeBelow sz t t'

/-- A sized instruction changes no register bit at or above its size (R22). -/
def Obligations.SizedInstructionsKeepHighBits : Prop :=
  ∀ (i : Instr) (sz : Size) (s t : State), opSize i = some sz → exec i s = .next t → ∀ r, KeepsHigh sz r s t

/-- An instruction changes no `$flags` bit that the table of R27 does not list for it on the machine's version. -/
def Obligations.OnlyTabulatedFlagsAreWritten : Prop :=
  ∀ (i : Instr) (s t : State), exec i s = .next t →
    ∀ j, j ∉ flagsWritten s i → t.flags.getLsbD j = s.flags.getLsbD j

/-- The carry function is the carry out of an addition for either carry in, at every width (R9); the overflow
function is its other form `a ^ b ^ c ^ C(a, b, c)`, and is signed overflow (R10). -/
def Obligations.CarryAndOverflowFunctions : Prop :=
  (∀ (w : Nat) (x y : BitVec (w + 1)) (cin : Bool),
    let r := x + y + (BitVec.ofBool cin).setWidth (w + 1)
    carryFn x.msb y.msb r.msb = decide (2 ^ (w + 1) ≤ x.toNat + y.toNat + cin.toNat)) ∧
  (∀ a b c, overflowFn a b c = (a ^^ b ^^ c ^^ carryFn a b c)) ∧
  (∀ (w : Nat) (x y : BitVec (w + 1)),
    overflowFn x.msb y.msb (x + y).msb =
      decide (x.toInt + y.toInt < -(2 ^ w : Int) ∨ (2 ^ w : Int) ≤ x.toInt + y.toInt))

/-- What supplies each operand of every form: R62 for the three-operand forms, of which the shifts and `sext` have
four, `extr`, `extrs`, `div` and `mod` three and `ins` two (R120, R160, R190); R100, R130, R140, R180, R181 and R193
for the others; and what each extension makes of an immediate (R64). -/
def Obligations.OperandFormsAreAsTabulated : Prop :=
  ∀ (s : State) (e : Extension) (r1 r2 r3 : Reg) (i8 : Byte) (i16 : Half),
    (AluForm.r1r2i8 r1 r2 i8).dst = r1 ∧ (AluForm.r1r2i8 r1 r2 i8).src1 s = s.reg r2 ∧
    (AluForm.r1r2i8 r1 r2 i8).src2 e s = extend e i8 ∧
    (AluForm.r1r2i16 r1 r2 i16).dst = r1 ∧ (AluForm.r1r2i16 r1 r2 i16).src1 s = s.reg r2 ∧
    (AluForm.r1r2i16 r1 r2 i16).src2 e s = extend e i16 ∧
    (AluForm.r2r2i8 r2 i8).dst = r2 ∧ (AluForm.r2r2i8 r2 i8).src1 s = s.reg r2 ∧
    (AluForm.r2r2i8 r2 i8).src2 e s = extend e i8 ∧
    (AluForm.r2r2i16 r2 i16).dst = r2 ∧ (AluForm.r2r2i16 r2 i16).src1 s = s.reg r2 ∧
    (AluForm.r2r2i16 r2 i16).src2 e s = extend e i16 ∧
    (AluForm.r2r2r1 r2 r1).dst = r2 ∧ (AluForm.r2r2r1 r2 r1).src1 s = s.reg r2 ∧
    (AluForm.r2r2r1 r2 r1).src2 e s = s.reg r1 ∧
    (AluForm.r3r2r1 r3 r2 r1).dst = r3 ∧ (AluForm.r3r2r1 r3 r2 r1).src1 s = s.reg r2 ∧
    (AluForm.r3r2r1 r3 r2 r1).src2 e s = s.reg r1 ∧
    (ShiftForm.r1r2i8 r1 r2 i8).toAlu = .r1r2i8 r1 r2 i8 ∧ (ShiftForm.r2r2i8 r2 i8).toAlu = .r2r2i8 r2 i8 ∧
    (ShiftForm.r2r2r1 r2 r1).toAlu = .r2r2r1 r2 r1 ∧ (ShiftForm.r3r2r1 r3 r2 r1).toAlu = .r3r2r1 r3 r2 r1 ∧
    (FieldForm.r1r2i8 r1 r2 i8).toAlu = .r1r2i8 r1 r2 i8 ∧ (FieldForm.r1r2i16 r1 r2 i16).toAlu = .r1r2i16 r1 r2 i16 ∧
    (FieldForm.r3r2r1 r3 r2 r1).toAlu = .r3r2r1 r3 r2 r1 ∧
    (InsForm.r1r2i8 r1 r2 i8).toAlu = .r1r2i8 r1 r2 i8 ∧ (InsForm.r1r2i16 r1 r2 i16).toAlu = .r1r2i16 r1 r2 i16 ∧
    (CmpForm.r2i8 r2 i8).src1 s = s.reg r2 ∧ (CmpForm.r2i8 r2 i8).src2 e s = extend e i8 ∧
    (CmpForm.r2i16 r2 i16).src1 s = s.reg r2 ∧ (CmpForm.r2i16 r2 i16).src2 e s = extend e i16 ∧
    (CmpForm.r2r1 r2 r1).src1 s = s.reg r2 ∧ (CmpForm.r2r1 r2 r1).src2 e s = s.reg r1 ∧
    (UnaryForm.r1r2 r1 r2).dst = r1 ∧ (UnaryForm.r1r2 r1 r2).src s = s.reg r2 ∧
    (UnaryForm.r2r2 r2).dst = r2 ∧ (UnaryForm.r2r2 r2).src s = s.reg r2 ∧
    (ImmForm.r2i8 r2 i8).dst = r2 ∧ (ImmForm.r2i8 r2 i8).src e = extend e i8 ∧
    (ImmForm.r2i16 r2 i16).dst = r2 ∧ (ImmForm.r2i16 r2 i16).src e = extend e i16 ∧
    (XbitForm.r1r2i8 r1 r2 i8).dst = r1 ∧ (XbitForm.r1r2i8 r1 r2 i8).src1 s = s.reg r2 ∧
    (XbitForm.r1r2i8 r1 r2 i8).src2 s = i8.setWidth 32 ∧
    (XbitForm.r3r2r1 r3 r2 r1).dst = r3 ∧ (XbitForm.r3r2r1 r3 r2 r1).src1 s = s.reg r2 ∧
    (XbitForm.r3r2r1 r3 r2 r1).src2 s = s.reg r1 ∧
    (XbitForm.r2flagsi8 r2 i8).dst = r2 ∧ (XbitForm.r2flagsi8 r2 i8).src1 s = s.flags ∧
    (XbitForm.r2flagsi8 r2 i8).src2 s = i8.setWidth 32 ∧
    (XbitForm.r1flagsr2 r1 r2).dst = r1 ∧ (XbitForm.r1flagsr2 r1 r2).src1 s = s.flags ∧
    (XbitForm.r1flagsr2 r1 r2).src2 s = s.reg r2 ∧
    (BitForm.r2i8 r2 i8).dst = some r2 ∧ (BitForm.r2i8 r2 i8).src s = i8.setWidth 32 ∧
    (BitForm.r2r1 r2 r1).dst = some r2 ∧ (BitForm.r2r1 r2 r1).src s = s.reg r1 ∧
    (BitForm.flagsi8 i8).dst = none ∧ (BitForm.flagsi8 i8).src s = i8.setWidth 32 ∧
    (BitForm.flagsr2 r2).dst = none ∧ (BitForm.flagsr2 r2).src s = s.reg r2 ∧
    (SetpForm.r2i8 r2 i8).src1 s = s.reg r2 ∧ (SetpForm.r2i8 r2 i8).src2 s = i8.setWidth 32 ∧
    (SetpForm.r2r1 r2 r1).src1 s = s.reg r2 ∧ (SetpForm.r2r1 r2 r1).src2 s = s.reg r1 ∧
    extend .truncated i8 = i8.setWidth 32 ∧ extend .zero i8 = i8.setWidth 32 ∧ extend .sign i8 = i8.signExtend 32 ∧
    extend .zero i16 = i16.setWidth 32 ∧ extend .sign i16 = i16.signExtend 32

/-! Comparison (40_compare.md). -/

/-- `cmpu` completes in every state; `c` is the borrow of the subtraction of its operands at the operation size and
`z` is 1 where their difference is 0; nothing else changes (R101). -/
def Obligations.CmpuComparesUnsigned : Prop :=
  ∀ (sz : Size) (f : CmpForm) (s : State),
    let a := lo sz (f.src1 s)
    let b := lo sz (f.src2 .zero s)
    ∃ t, exec (.cmpu sz f) s = .next t ∧ OnlyChanges s t none [8, 11] f.len ∧
      t.flags.getLsbD 8 = (!carryFn a.msb (!b.msb) (a - b).msb) ∧ (t.flags.getLsbD 11 = true ↔ a - b = 0)

/-- `cmps` completes in every state; `c` is the overflow xor the sign of the subtraction, which is the signed
less-than of its operands at the operation size, and `z` is 1 where their difference is 0; nothing else changes
(R102). -/
def Obligations.CmpsComparesSigned : Prop :=
  ∀ (sz : Size) (f : CmpForm) (s : State),
    let a := lo sz (f.src1 s)
    let b := lo sz (f.src2 .sign s)
    ∃ t, exec (.cmps sz f) s = .next t ∧ OnlyChanges s t none [8, 11] f.len ∧
      t.flags.getLsbD 8 = (overflowFn a.msb (!b.msb) (a - b).msb ^^ (a - b).msb) ∧
      (t.flags.getLsbD 8 = true ↔ a.toInt < b.toInt) ∧ (t.flags.getLsbD 11 = true ↔ a - b = 0)

/-- On v3+ `cmp` completes in every state with the four flags of the subtraction and changes nothing else; of two
registers, its flags are those of `sub`. On v0 it is refused (R103). -/
def Obligations.CmpSetsTheFlagsOfASubtraction : Prop :=
  ∀ (sz : Size) (f : CmpForm) (s : State),
    let a := lo sz (f.src1 s)
    let b := lo sz (f.src2 .sign s)
    (s.isV0 = true → exec (.cmp sz f) s = .refused .notPresentOnVersion) ∧
    (s.isV0 = false →
      ∃ t, exec (.cmp sz f) s = .next t ∧ OnlyChanges s t none [8, 9, 10, 11] f.len ∧
        t.flags.getLsbD 8 = (!carryFn a.msb (!b.msb) (a - b).msb) ∧
        t.flags.getLsbD 9 = overflowFn a.msb (!b.msb) (a - b).msb ∧ FlagsSZ t (a - b) ∧
        ∀ r1 r2 r3, f = .r2r1 r2 r1 →
          ∃ u, exec (.sub sz (.r3r2r1 r3 r2 r1)) s = .next u ∧ u.flags = t.flags ∧ u.pc = t.pc)

/-! Addition and subtraction (41_addsub.md). -/

/-- `add` completes in every state: the sum modulo `2^sz`, the high bits of the destination kept, and all four
flags (R111). -/
def Obligations.AddComputesSumAndFlags : Prop :=
  ∀ (sz : Size) (f : AluForm) (s : State),
    let a := lo sz (f.src1 s)
    let b := lo sz (f.src2 .zero s)
    ∃ t, exec (.add sz f) s = .next t ∧ OnlyChanges s t (some f.dst) [8, 9, 10, 11] f.len ∧
      KeepsHigh sz f.dst s t ∧
      (lo sz (t.reg f.dst)).toNat = (a.toNat + b.toNat) % 2 ^ width sz ∧
      t.flags.getLsbD 8 = (carryFn a.msb b.msb (lo sz (t.reg f.dst)).msb) ∧
      t.flags.getLsbD 9 = overflowFn a.msb b.msb (lo sz (t.reg f.dst)).msb ∧
      FlagsSZ t (lo sz (t.reg f.dst))

/-- `adc` completes in every state: the sum with the old carry modulo `2^sz`, the high bits of the destination
kept, and all four flags (R112). -/
def Obligations.AdcComputesSumWithCarryAndFlags : Prop :=
  ∀ (sz : Size) (f : AluForm) (s : State),
    let a := lo sz (f.src1 s)
    let b := lo sz (f.src2 .zero s)
    let cin := (s.flags.getLsbD 8).toNat
    ∃ t, exec (.adc sz f) s = .next t ∧ OnlyChanges s t (some f.dst) [8, 9, 10, 11] f.len ∧
      KeepsHigh sz f.dst s t ∧
      (lo sz (t.reg f.dst)).toNat = (a.toNat + b.toNat + cin) % 2 ^ width sz ∧
      t.flags.getLsbD 8 = (carryFn a.msb b.msb (lo sz (t.reg f.dst)).msb) ∧
      t.flags.getLsbD 9 = overflowFn a.msb b.msb (lo sz (t.reg f.dst)).msb ∧
      FlagsSZ t (lo sz (t.reg f.dst))

/-- `sub` completes in every state: the difference modulo `2^sz`, the high bits of the destination kept, and all
four flags, `c` being the borrow (R113). -/
def Obligations.SubComputesDifferenceAndFlags : Prop :=
  ∀ (sz : Size) (f : AluForm) (s : State),
    let a := lo sz (f.src1 s)
    let b := lo sz (f.src2 .zero s)
    ∃ t, exec (.sub sz f) s = .next t ∧ OnlyChanges s t (some f.dst) [8, 9, 10, 11] f.len ∧
      KeepsHigh sz f.dst s t ∧
      (lo sz (t.reg f.dst)).toNat = (2 ^ width sz + a.toNat - b.toNat) % 2 ^ width sz ∧
      t.flags.getLsbD 8 = (!carryFn a.msb (!b.msb) (lo sz (t.reg f.dst)).msb) ∧
      t.flags.getLsbD 9 = overflowFn a.msb (!b.msb) (lo sz (t.reg f.dst)).msb ∧
      (t.flags.getLsbD 9 = true ↔ a.msb ≠ b.msb ∧ (lo sz (t.reg f.dst)).msb ≠ a.msb) ∧
      FlagsSZ t (lo sz (t.reg f.dst))

/-- `sbb` completes in every state: the difference with the old borrow modulo `2^sz`, the high bits of the
destination kept, and all four flags, `c` being the borrow (R114). -/
def Obligations.SbbComputesDifferenceWithBorrowAndFlags : Prop :=
  ∀ (sz : Size) (f : AluForm) (s : State),
    let a := lo sz (f.src1 s)
    let b := lo sz (f.src2 .zero s)
    let bin := (s.flags.getLsbD 8).toNat
    ∃ t, exec (.sbb sz f) s = .next t ∧ OnlyChanges s t (some f.dst) [8, 9, 10, 11] f.len ∧
      KeepsHigh sz f.dst s t ∧
      (lo sz (t.reg f.dst)).toNat = (2 * 2 ^ width sz + a.toNat - b.toNat - bin) % 2 ^ width sz ∧
      t.flags.getLsbD 8 = (!carryFn a.msb (!b.msb) (lo sz (t.reg f.dst)).msb) ∧
      t.flags.getLsbD 9 = overflowFn a.msb (!b.msb) (lo sz (t.reg f.dst)).msb ∧
      FlagsSZ t (lo sz (t.reg f.dst))

/-! Shifts (42_shift.md). In each, the count is SRC2 modulo the operation size, and `c` is the last bit shifted out,
or 0 for a count of 0; on v0 no other flag changes. -/

/-- `shl` completes in every state: multiplication by `2^shcnt` modulo `2^sz` (R121). -/
def Obligations.ShlShiftsLeft : Prop :=
  ∀ (sz : Size) (f : ShiftForm) (s : State),
    let a := lo sz (f.toAlu.src1 s)
    let n := (f.toAlu.src2 .truncated s).toNat % width sz
    ∃ t, exec (.shl sz f) s = .next t ∧ OnlyChanges s t (some f.toAlu.dst) (shiftBits s) f.toAlu.len ∧
      KeepsHigh sz f.toAlu.dst s t ∧
      (lo sz (t.reg f.toAlu.dst)).toNat = a.toNat * 2 ^ n % 2 ^ width sz ∧
      ShiftFlags s t (decide (n ≠ 0) && a.getLsbD (width sz - n)) (lo sz (t.reg f.toAlu.dst))

/-- `shr` completes in every state: unsigned division by `2^shcnt` (R122). -/
def Obligations.ShrShiftsRight : Prop :=
  ∀ (sz : Size) (f : ShiftForm) (s : State),
    let a := lo sz (f.toAlu.src1 s)
    let n := (f.toAlu.src2 .truncated s).toNat % width sz
    ∃ t, exec (.shr sz f) s = .next t ∧ OnlyChanges s t (some f.toAlu.dst) (shiftBits s) f.toAlu.len ∧
      KeepsHigh sz f.toAlu.dst s t ∧
      (lo sz (t.reg f.toAlu.dst)).toNat = a.toNat / 2 ^ n ∧
      ShiftFlags s t (decide (n ≠ 0) && a.getLsbD (n - 1)) (lo sz (t.reg f.toAlu.dst))

/-- `sar` completes in every state: the bits shifted in at the top equal the sign bit of the source (R123). -/
def Obligations.SarShiftsTheSignIn : Prop :=
  ∀ (sz : Size) (f : ShiftForm) (s : State),
    let a := lo sz (f.toAlu.src1 s)
    let n := (f.toAlu.src2 .truncated s).toNat % width sz
    ∃ t, exec (.sar sz f) s = .next t ∧ OnlyChanges s t (some f.toAlu.dst) (shiftBits s) f.toAlu.len ∧
      KeepsHigh sz f.toAlu.dst s t ∧
      (∀ j, j < width sz → (t.reg f.toAlu.dst).getLsbD j =
        if j + n < width sz then a.getLsbD (j + n) else a.msb) ∧
      ShiftFlags s t (decide (n ≠ 0) && a.getLsbD (n - 1)) (lo sz (t.reg f.toAlu.dst))

/-- `shlc` completes in every state: as `shl`, the highest of the bits shifted in being the old carry (R124). -/
def Obligations.ShlcShiftsTheCarryIn : Prop :=
  ∀ (sz : Size) (f : ShiftForm) (s : State),
    let a := lo sz (f.toAlu.src1 s)
    let n := (f.toAlu.src2 .truncated s).toNat % width sz
    ∃ t, exec (.shlc sz f) s = .next t ∧ OnlyChanges s t (some f.toAlu.dst) (shiftBits s) f.toAlu.len ∧
      KeepsHigh sz f.toAlu.dst s t ∧
      (∀ j, j < width sz → (t.reg f.toAlu.dst).getLsbD j =
        if n ≤ j then a.getLsbD (j - n) else decide (j + 1 = n) && s.flags.getLsbD 8) ∧
      ShiftFlags s t (decide (n ≠ 0) && a.getLsbD (width sz - n)) (lo sz (t.reg f.toAlu.dst))

/-- `shrc` completes in every state: as `shr`, the lowest of the bits shifted in being the old carry (R125). -/
def Obligations.ShrcShiftsTheCarryIn : Prop :=
  ∀ (sz : Size) (f : ShiftForm) (s : State),
    let a := lo sz (f.toAlu.src1 s)
    let n := (f.toAlu.src2 .truncated s).toNat % width sz
    ∃ t, exec (.shrc sz f) s = .next t ∧ OnlyChanges s t (some f.toAlu.dst) (shiftBits s) f.toAlu.len ∧
      KeepsHigh sz f.toAlu.dst s t ∧
      (∀ j, j < width sz → (t.reg f.toAlu.dst).getLsbD j =
        if j + n < width sz then a.getLsbD (j + n) else decide (j + n = width sz) && s.flags.getLsbD 8) ∧
      ShiftFlags s t (decide (n ≠ 0) && a.getLsbD (n - 1)) (lo sz (t.reg f.toAlu.dst))

/-! Unary operations (43_unary.md). -/

/-- `not` completes in every state: every one of the `sz` bits is flipped, `o` is 0, `c` is kept (R131). -/
def Obligations.NotFlipsEveryBit : Prop :=
  ∀ (sz : Size) (f : UnaryForm) (s : State),
    ∃ t, exec (.not sz f) s = .next t ∧ OnlyChanges s t (some f.dst) [9, 10, 11] f.len ∧
      KeepsHigh sz f.dst s t ∧
      (∀ j, j < width sz → (t.reg f.dst).getLsbD j = !(f.src s).getLsbD j) ∧
      t.flags.getLsbD 9 = false ∧ FlagsSZ t (lo sz (t.reg f.dst))

/-- `neg` completes in every state: the negation modulo `2^sz`, `o` exactly for the source `2^(sz-1)`, `c` kept
(R132). -/
def Obligations.NegNegates : Prop :=
  ∀ (sz : Size) (f : UnaryForm) (s : State),
    let a := lo sz (f.src s)
    ∃ t, exec (.neg sz f) s = .next t ∧ OnlyChanges s t (some f.dst) [9, 10, 11] f.len ∧
      KeepsHigh sz f.dst s t ∧
      (lo sz (t.reg f.dst)).toNat = (2 ^ width sz - a.toNat) % 2 ^ width sz ∧
      (t.flags.getLsbD 9 = true ↔ a.toNat = 2 ^ (width sz - 1)) ∧ FlagsSZ t (lo sz (t.reg f.dst))

/-- Subopcode 2 by version: on v0 `movf` completes in every state, a sized move with `o` 0 and `s`, `z` from the value
(R133); on v3+ the register `mov` completes in every state, a sized move that writes no flag (R134). -/
def Obligations.RegisterMovesByVersion : Prop :=
  ∀ (sz : Size) (f : UnaryForm) (s : State),
    (s.isV0 = true →
      ∃ t, exec (.movf sz f) s = .next t ∧ OnlyChanges s t (some f.dst) [9, 10, 11] f.len ∧
        KeepsHigh sz f.dst s t ∧ lo sz (t.reg f.dst) = lo sz (f.src s) ∧
        t.flags.getLsbD 9 = false ∧ FlagsSZ t (lo sz (f.src s))) ∧
    (s.isV0 = false →
      ∃ t, exec (.movReg sz f) s = .next t ∧ OnlyChanges s t (some f.dst) [] f.len ∧
        KeepsHigh sz f.dst s t ∧ lo sz (t.reg f.dst) = lo sz (f.src s))

/-- `hswap` completes in every state: a rotation by half the size, `o` 0, `c` kept (R135). -/
def Obligations.HswapRotatesByHalf : Prop :=
  ∀ (sz : Size) (f : UnaryForm) (s : State),
    ∃ t, exec (.hswap sz f) s = .next t ∧ OnlyChanges s t (some f.dst) [9, 10, 11] f.len ∧
      KeepsHigh sz f.dst s t ∧
      (∀ j, j < width sz → (t.reg f.dst).getLsbD j = (f.src s).getLsbD ((j + width sz / 2) % width sz)) ∧
      t.flags.getLsbD 9 = false ∧ FlagsSZ t (lo sz (t.reg f.dst))

/-! Immediate loads, `clear`, `setf` (44_loadimm_clear_setf.md). -/

/-- `mov` (immediate) completes in every state: the register holds the sign-extended immediate, no flag changes
(R141). -/
def Obligations.MovImmediateLoadsSignExtended : Prop :=
  ∀ (s : State) (r2 : Reg) (i8 : Byte) (i16 : Half),
    (∃ t, exec (.movImm (.r2i8 r2 i8)) s = .next t ∧ OnlyChanges s t (some r2) [] 3 ∧
      (t.reg r2).toInt = i8.toInt) ∧
    (∃ t, exec (.movImm (.r2i16 r2 i16)) s = .next t ∧ OnlyChanges s t (some r2) [] 4 ∧
      (t.reg r2).toInt = i16.toInt)

/-- `sethi` completes in every state: the zero-extended immediate in the high half, the low half kept, no flag
changed (R142). -/
def Obligations.SethiReplacesTheHighHalf : Prop :=
  ∀ (s : State) (r2 : Reg) (i8 : Byte) (i16 : Half),
    (∃ t, exec (.sethi (.r2i8 r2 i8)) s = .next t ∧ OnlyChanges s t (some r2) [] 3 ∧
      (t.reg r2).toNat = i8.toNat * 65536 + (s.reg r2).toNat % 65536) ∧
    (∃ t, exec (.sethi (.r2i16 r2 i16)) s = .next t ∧ OnlyChanges s t (some r2) [] 4 ∧
      (t.reg r2).toNat = i16.toNat * 65536 + (s.reg r2).toNat % 65536)

/-- `mov` then `sethi` of the two halves of `k`, in the `I16` form, loads `k` (R82). -/
def Obligations.MovThenSethiLoadsAnyConstant : Prop :=
  ∀ (s : State) (d : Reg) (k : Word),
    ∃ t u, exec (.movImm (.r2i16 d (k.extractLsb' 0 16))) s = .next t ∧
      exec (.sethi (.r2i16 d (k.extractLsb' 16 16))) t = .next u ∧ u.reg d = k ∧
      OnlyChanges s u (some d) [] 8

/-- `clear` completes in every state: the low `sz` bits become 0, the rest and every flag are kept (R143). -/
def Obligations.ClearZeroesTheLowBits : Prop :=
  ∀ (sz : Size) (r2 : Reg) (s : State),
    ∃ t, exec (.clear sz r2) s = .next t ∧ OnlyChanges s t (some r2) [] 2 ∧ KeepsHigh sz r2 s t ∧
      ∀ j, j < width sz → (t.reg r2).getLsbD j = false

/-- On v3+ `setf` completes in every state: `o` 0, `s` and `z` from the low `sz` bits of the register, no register
and not `c`. On v0 it is refused (R144). -/
def Obligations.SetfTestsAValue : Prop :=
  ∀ (sz : Size) (r2 : Reg) (s : State),
    (s.isV0 = true → exec (.setf sz r2) s = .refused .notPresentOnVersion) ∧
    (s.isV0 = false →
      ∃ t, exec (.setf sz r2) s = .next t ∧ OnlyChanges s t none [9, 10, 11] 2 ∧
        t.flags.getLsbD 9 = false ∧ FlagsSZ t (lo sz (s.reg r2)))

/-! Multiplication (45_mul.md). -/

/-- `mulu` completes in every state: the exact unsigned product of the sources' low halves; no flag (R151). -/
def Obligations.MuluMultipliesLowHalves : Prop :=
  ∀ (f : AluForm) (s : State),
    ∃ t, exec (.mulu f) s = .next t ∧ OnlyChanges s t (some f.dst) [] f.len ∧
      (t.reg f.dst).toNat = ((f.src1 s).toNat % 65536) * ((f.src2 .zero s).toNat % 65536)

/-- `muls` completes in every state: the exact signed product of the sources' low halves; no flag (R152). -/
def Obligations.MulsMultipliesSignedLowHalves : Prop :=
  ∀ (f : AluForm) (s : State),
    ∃ t, exec (.muls f) s = .next t ∧ OnlyChanges s t (some f.dst) [] f.len ∧
      (t.reg f.dst).toInt = ((f.src1 s).setWidth 16).toInt * ((f.src2 .sign s).setWidth 16).toInt

/-! Sign extension and bitfields (46_sext_bitfield.md). -/

/-- `sext` completes in every state: every bit above the index is a copy of the indexed bit; `s` and `z` from the
result, `c` and `o` kept (R161). -/
def Obligations.SextCopiesTheSignBit : Prop :=
  ∀ (f : ShiftForm) (s : State),
    let n := (f.toAlu.src2 .truncated s).toNat % 32
    ∃ t, exec (.sext f) s = .next t ∧ OnlyChanges s t (some f.toAlu.dst) [10, 11] f.toAlu.len ∧
      (∀ j, j < 32 → (t.reg f.toAlu.dst).getLsbD j = (f.toAlu.src1 s).getLsbD (min j n)) ∧
      FlagsSZ t (t.reg f.toAlu.dst)

/-- On v3+ `extr` completes in every state: the field in the low bits and zeros above it; `s` 0, `z` from the
result, `c` and `o` kept. On v0 it is refused (R162). -/
def Obligations.ExtrExtractsUnsigned : Prop :=
  ∀ (f : FieldForm) (s : State),
    let low := (f.toAlu.src2 .zero s).toNat % 32
    let sizem1 := (f.toAlu.src2 .zero s).toNat / 32 % 32
    (s.isV0 = true → exec (.extr f) s = .refused .notPresentOnVersion) ∧
    (s.isV0 = false →
      ∃ t, exec (.extr f) s = .next t ∧ OnlyChanges s t (some f.toAlu.dst) [10, 11] f.toAlu.len ∧
        (∀ j, j < 32 →
          (t.reg f.toAlu.dst).getLsbD j = (decide (j ≤ sizem1) && (f.toAlu.src1 s).getLsbD (low + j))) ∧
        t.flags.getLsbD 10 = false ∧ (t.flags.getLsbD 11 = true ↔ t.reg f.toAlu.dst = 0))

/-- On v3+ `extrs` completes in every state: the field in the low bits and copies above it of the source's bit
`(low + sizem1) mod 32`, which is also `s`; `z` from the result, `c` and `o` kept. On v0 it is refused. Where the
field runs past bit 31 the wrapped index is the spec's decision D15 to follow the pseudocode (R163, log 8). -/
def Obligations.ExtrsExtractsSigned : Prop :=
  ∀ (f : FieldForm) (s : State),
    let low := (f.toAlu.src2 .zero s).toNat % 32
    let sizem1 := (f.toAlu.src2 .zero s).toNat / 32 % 32
    let fill := (f.toAlu.src1 s).getLsbD ((low + sizem1) % 32)
    (s.isV0 = true → exec (.extrs f) s = .refused .notPresentOnVersion) ∧
    (s.isV0 = false →
      ∃ t, exec (.extrs f) s = .next t ∧ OnlyChanges s t (some f.toAlu.dst) [10, 11] f.toAlu.len ∧
        (∀ j, j < 32 → (t.reg f.toAlu.dst).getLsbD j =
          if j ≤ sizem1 then (f.toAlu.src1 s).getLsbD (low + j) else fill) ∧
        t.flags.getLsbD 10 = fill ∧ (t.flags.getLsbD 11 = true ↔ t.reg f.toAlu.dst = 0))

/-- On v3+ `ins` with its field in bounds completes in every state: the source's low bits replace the field, every
other bit of the destination and every flag are kept; out of bounds under `INS_OOB = nop` it changes nothing but
`pc`; under `INS_OOB = refuse` it is refused. On v0 it is refused. The parameter is the spec's decision D14
(R164, log 7). -/
def Obligations.InsInsertsABitfield : Prop :=
  ∀ (f : InsForm) (s : State),
    let low := (f.toAlu.src2 .zero s).toNat % 32
    let size := (f.toAlu.src2 .zero s).toNat / 32 % 32 + 1
    (s.isV0 = true → exec (.ins f) s = .refused .notPresentOnVersion) ∧
    (s.isV0 = false →
      if low + size ≤ 32 then
        ∃ t, exec (.ins f) s = .next t ∧ OnlyChanges s t (some f.toAlu.dst) [] f.toAlu.len ∧
          ∀ j, j < 32 → (t.reg f.toAlu.dst).getLsbD j =
            if low ≤ j ∧ j < low + size then (f.toAlu.src1 s).getLsbD (j - low)
            else (s.reg f.toAlu.dst).getLsbD j
      else if s.config.insOob = .nop then
        ∃ t, exec (.ins f) s = .next t ∧ OnlyChanges s t none [] f.toAlu.len
      else exec (.ins f) s = .refused .insOutOfBounds)

/-! Bitwise operations (47_logic.md). -/

/-- `and`, `or` and `xor` complete in every state: the bitwise result; on v3+ `c` and `o` 0 and `s`, `z` from the
result, on v0 no flag (R171, R172, R173). -/
def Obligations.BitwiseOperations : Prop :=
  ∀ (f : AluForm) (s : State),
    (∃ t, exec (.and f) s = .next t ∧ OnlyChanges s t (some f.dst) (logicBits s) f.len ∧
      (∀ j, (t.reg f.dst).getLsbD j = ((f.src1 s).getLsbD j && (f.src2 .zero s).getLsbD j)) ∧
      LogicFlags s t (t.reg f.dst)) ∧
    (∃ t, exec (.or f) s = .next t ∧ OnlyChanges s t (some f.dst) (logicBits s) f.len ∧
      (∀ j, (t.reg f.dst).getLsbD j = ((f.src1 s).getLsbD j || (f.src2 .zero s).getLsbD j)) ∧
      LogicFlags s t (t.reg f.dst)) ∧
    (∃ t, exec (.xor f) s = .next t ∧ OnlyChanges s t (some f.dst) (logicBits s) f.len ∧
      (∀ j, (t.reg f.dst).getLsbD j = ((f.src1 s).getLsbD j ^^ (f.src2 .zero s).getLsbD j)) ∧
      LogicFlags s t (t.reg f.dst))

/-! Bit operations (48_bit.md). -/

/-- `xbit` completes in every state (in a `$flags` form, where the bit may be accessed): on v3+ the destination is
the bit, `s` is 0 and `z` its complement, and the immediate form on a register is `extr` with size 1; on v0 the bit
replaces bit 0 of the destination and no flag changes (R180). -/
def Obligations.XbitExtractsABit : Prop :=
  ∀ (f : XbitForm) (s : State),
    let n := (f.src2 s).toNat % 32
    let b := (f.src1 s).getLsbD n
    (f.readsFlags = true → FlagsBitFree s n) →
    (s.isV0 = false → ∃ t, exec (.xbit f) s = .next t ∧ OnlyChanges s t (some f.dst) [10, 11] 3 ∧
      t.reg f.dst = (if b then 1#32 else 0#32) ∧ t.flags.getLsbD 10 = false ∧ t.flags.getLsbD 11 = !b ∧
      ∀ r1 r2 imm, f = .r1r2i8 r1 r2 imm → exec (.extr (.r1r2i8 r1 r2 (imm &&& 0x1f#8))) s = .next t) ∧
    (s.isV0 = true → ∃ t, exec (.xbit f) s = .next t ∧ OnlyChanges s t (some f.dst) [] 3 ∧
      (t.reg f.dst).getLsbD 0 = b ∧ ∀ j, j ≠ 0 → (t.reg f.dst).getLsbD j = (s.reg f.dst).getLsbD j)

/-- `bset` completes in every state (in a `$flags` form, where the bit may be accessed): the indexed bit of its
destination, a register or `$flags`, becomes 1, and nothing else but `pc` changes (R182). -/
def Obligations.BsetSetsABit : Prop :=
  ∀ (f : BitForm) (s : State),
    let n := (f.src s).toNat % 32
    (∀ d, f.dst = some d →
      ∃ t, exec (.bset f) s = .next t ∧ OnlyChanges s t (some d) [] f.len ∧
        ∀ j, j < 32 → (t.reg d).getLsbD j = if j = n then true else (s.reg d).getLsbD j) ∧
    (f.dst = none → FlagsBitFree s n →
      ∃ t, exec (.bset f) s = .next t ∧ OnlyChanges s t none [n] f.len ∧
        t.flags.getLsbD n = true)

/-- `bclr` completes in every state (in a `$flags` form, where the bit may be accessed): the indexed bit of its
destination, a register or `$flags`, becomes 0, and nothing else but `pc` changes (R183). -/
def Obligations.BclrClearsABit : Prop :=
  ∀ (f : BitForm) (s : State),
    let n := (f.src s).toNat % 32
    (∀ d, f.dst = some d →
      ∃ t, exec (.bclr f) s = .next t ∧ OnlyChanges s t (some d) [] f.len ∧
        ∀ j, j < 32 → (t.reg d).getLsbD j = if j = n then false else (s.reg d).getLsbD j) ∧
    (f.dst = none → FlagsBitFree s n →
      ∃ t, exec (.bclr f) s = .next t ∧ OnlyChanges s t none [n] f.len ∧
        t.flags.getLsbD n = false)

/-- `btgl` completes in every state (in a `$flags` form, where the bit may be accessed): the indexed bit of its
destination, a register or `$flags`, becomes its complement, and nothing else but `pc` changes (R184). -/
def Obligations.BtglInvertsABit : Prop :=
  ∀ (f : BitForm) (s : State),
    let n := (f.src s).toNat % 32
    (∀ d, f.dst = some d →
      ∃ t, exec (.btgl f) s = .next t ∧ OnlyChanges s t (some d) [] f.len ∧
        ∀ j, j < 32 → (t.reg d).getLsbD j = if j = n then !(s.reg d).getLsbD j else (s.reg d).getLsbD j) ∧
    (f.dst = none → FlagsBitFree s n →
      ∃ t, exec (.btgl f) s = .next t ∧ OnlyChanges s t none [n] f.len ∧
        t.flags.getLsbD n = !s.flags.getLsbD n)

/-! Division and `setp` (49_div_setp.md). -/

/-- On v3+ `div` and `mod` complete in every state, a zero divisor included: the unsigned quotient rounded toward
zero, or all ones; the unsigned remainder, or the dividend; no flag. On v0 they are refused (R191, R192). -/
def Obligations.DivAndModAreUnsigned : Prop :=
  ∀ (f : FieldForm) (s : State),
    let a := (f.toAlu.src1 s).toNat
    let b := (f.toAlu.src2 .zero s).toNat
    (s.isV0 = true → exec (.div f) s = .refused .notPresentOnVersion ∧
      exec (.mod f) s = .refused .notPresentOnVersion) ∧
    (s.isV0 = false →
      (∃ t, exec (.div f) s = .next t ∧ OnlyChanges s t (some f.toAlu.dst) [] f.toAlu.len ∧
        (t.reg f.toAlu.dst).toNat = if b = 0 then 0xFFFFFFFF else a / b) ∧
      (∃ t, exec (.mod f) s = .next t ∧ OnlyChanges s t (some f.toAlu.dst) [] f.toAlu.len ∧
        (t.reg f.toAlu.dst).toNat = if b = 0 then a else a % b))

/-- `setp` completes wherever the bit may be accessed: the indexed bit of `$flags` takes bit 0 of SRC1, and nothing
else but `pc` changes (R193). -/
def Obligations.SetpSetsOneFlagsBit : Prop :=
  ∀ (f : SetpForm) (s : State),
    let n := (f.src2 s).toNat % 32
    FlagsBitFree s n →
    ∃ t, exec (.setp f) s = .next t ∧ OnlyChanges s t none [n] 3 ∧ t.flags.getLsbD n = (f.src1 s).getLsbD 0

/-! The conservative reading of `$flags` bits outside the mask (10_state.md R25). -/

/-- The `$flags` forms of `xbit`, `bset`, `bclr`, `btgl` and every `setp` are refused for their `$flags` bit exactly
when the conservative reading is chosen and the bit is outside the mask; no other form of `xbit`, `bset`, `bclr`,
`btgl` is ever refused for it. Which reading a machine has is a parameter (R25, log 5). -/
def Obligations.ConservativeReadingRefusesUndefinedFlags : Prop :=
  ∀ s : State,
    (∀ f : XbitForm, exec (.xbit f) s = .refused .flagsBitOutsideMask ↔
      s.config.flagsOutside = .refuse ∧ f.readsFlags = true ∧
        s.config.flagsDefinedMask.getLsbD ((f.src2 s).toNat % 32) = false) ∧
    (∀ f : BitForm,
      let outside := s.config.flagsOutside = .refuse ∧ f.dst = none ∧
        s.config.flagsDefinedMask.getLsbD ((f.src s).toNat % 32) = false
      (exec (.bset f) s = .refused .flagsBitOutsideMask ↔ outside) ∧
      (exec (.bclr f) s = .refused .flagsBitOutsideMask ↔ outside) ∧
      (exec (.btgl f) s = .refused .flagsBitOutsideMask ↔ outside)) ∧
    (∀ f : SetpForm, exec (.setp f) s = .refused .flagsBitOutsideMask ↔
      s.config.flagsOutside = .refuse ∧ s.config.flagsDefinedMask.getLsbD ((f.src2 s).toNat % 32) = false)

/-! What the carry and overflow flags mean. -/

/-- The flags `c` and `o` mean what the spec derives of them (40_compare.md, 41_addsub.md, 00_scope.md): `c` is
unsigned overflow of a sum and unsigned less-than of a difference, carry and borrow in included; `o` is a signed
result that does not fit. -/
def Obligations.CarryAndOverflowFlagsMeanOutOfRange : Prop :=
  ∀ (sz : Size) (s : State),
    let half : Int := 2 ^ (width sz - 1)
    let cin := (s.flags.getLsbD 8).toNat
    (∀ f : AluForm,
      let a := lo sz (f.src1 s)
      let b := lo sz (f.src2 .zero s)
      (∃ t, exec (.add sz f) s = .next t ∧
        (t.flags.getLsbD 8 = true ↔ 2 ^ width sz ≤ a.toNat + b.toNat) ∧
        (t.flags.getLsbD 9 = true ↔ a.toInt + b.toInt < -half ∨ half ≤ a.toInt + b.toInt)) ∧
      (∃ t, exec (.adc sz f) s = .next t ∧
        (t.flags.getLsbD 8 = true ↔ 2 ^ width sz ≤ a.toNat + b.toNat + cin) ∧
        (t.flags.getLsbD 9 = true ↔ a.toInt + b.toInt + cin < -half ∨ half ≤ a.toInt + b.toInt + cin)) ∧
      (∃ t, exec (.sub sz f) s = .next t ∧
        (t.flags.getLsbD 8 = true ↔ a.toNat < b.toNat) ∧
        (t.flags.getLsbD 9 = true ↔ a.toInt - b.toInt < -half ∨ half ≤ a.toInt - b.toInt)) ∧
      (∃ t, exec (.sbb sz f) s = .next t ∧
        (t.flags.getLsbD 8 = true ↔ a.toNat < b.toNat + cin) ∧
        (t.flags.getLsbD 9 = true ↔ a.toInt - b.toInt - cin < -half ∨ half ≤ a.toInt - b.toInt - cin))) ∧
    (∀ f : CmpForm,
      (∃ t, exec (.cmpu sz f) s = .next t ∧
        (t.flags.getLsbD 8 = true ↔ (lo sz (f.src1 s)).toNat < (lo sz (f.src2 .zero s)).toNat)) ∧
      (s.isV0 = false →
        let a := lo sz (f.src1 s)
        let b := lo sz (f.src2 .sign s)
        ∃ t, exec (.cmp sz f) s = .next t ∧
          (t.flags.getLsbD 8 = true ↔ a.toNat < b.toNat) ∧
          (t.flags.getLsbD 9 = true ↔ a.toInt - b.toInt < -half ∨ half ≤ a.toInt - b.toInt)))
end

