-- ==== Sys2Proof/Laws/Encoding.lean ====
section
/-! SUPPORT. The fields of an encoding read back, and the presence check. -/

namespace Sys2Proof

@[simp] theorem hiNibble_pack (hi lo : BitVec 4) : hiNibble (pack hi lo) = hi := by
  revert hi lo; decide +kernel

@[simp] theorem loNibble_pack (hi lo : BitVec 4) : loNibble (pack hi lo) = lo := by
  revert hi lo; decide +kernel

/-- A byte is its two four-bit fields. -/
theorem pack_nibbles (b : Byte) : pack (hiNibble b) (loNibble b) = b := by
  revert b; decide +kernel

@[simp] theorem regOf_nibble (r : Reg) : regOf (nibble r) = r := rfl

@[simp] theorem nibble_regOf (n : BitVec 4) : nibble (regOf n) = n := rfl

/-- The two bytes of an `I16` join to it. -/
theorem joinHalf (imm : Half) : (imm.extractLsb' 8 8 ++ imm.extractLsb' 0 8 : Half) = imm := by
  apply BitVec.eq_of_getLsbD_eq
  intro j hj
  simp only [BitVec.getLsbD_append, BitVec.getLsbD_extractLsb']
  by_cases h : j < 8
  · simp [h]
  · have h8 : j - 8 < 8 := by omega
    have hs : 8 + (j - 8) = j := by omega
    simp [h, h8, hs]

/-- The presence check passes exactly the instructions the version has, unchanged. -/
theorem checkPresence_ok (v : FalconVersion) (i j : Instr) (h : checkPresence v i = .ok j) :
    i = j ∧ i.wellFormed v = true := by
  unfold checkPresence at h
  split at h
  · cases h; exact ⟨rfl, ‹_›⟩
  · cases h

/-- What a successful decoding went through, test by test (R80). -/
theorem decode_ok (v : FalconVersion) (bs : List Byte) (i : Instr) (h : decode v bs = .ok i) :
    ∃ b0 rest op, bs = b0 :: rest ∧ opcodeOf b0 = some op ∧ op.length ≤ bs.length ∧
      unusedBits op ⟨b0, rest.getD 0 0, rest.getD 1 0, rest.getD 2 0⟩ = false ∧
      cellOf v op ⟨b0, rest.getD 0 0, rest.getD 1 0, rest.getD 2 0⟩ = some i ∧ i.wellFormed v = true := by
  unfold decode at h
  split at h
  · cases h
  · rename_i b0 rest
    split at h
    · cases h
    · rename_i op hop
      split at h
      · cases h
      · rename_i hlen
        simp only at h
        split at h
        · cases h
        · rename_i hun
          split at h
          · cases h
          · rename_i j hcell
            obtain ⟨rfl, hw⟩ := checkPresence_ok _ _ _ h
            exact ⟨b0, rest, op, rfl, hop, by simpa using hlen, by simpa using hun, hcell, hw⟩

end Sys2Proof
end

