-- ==== Sys2Proof/Laws/Flags.lean ====
section
/-! SUPPORT. What each flag writer leaves in every bit of `$flags`. -/

namespace Sys2Proof.Machine

/-- A replaced bit reads as written and every other bit as before. -/
theorem getLsbD_putBit (i j : Nat) (b : Bool) (v : Word) (h : i < 32) :
    (putBit i b v).getLsbD j = if j = i then b else v.getLsbD j := by
  unfold putBit
  by_cases hij : j = i
  · subst hij
    cases b <;> simp [h]
  · by_cases hj : j < 32
    · cases b <;> simp [hij, hj]
    · have hv : v.getLsbD j = false := BitVec.getLsbD_of_ge v j (by omega)
      cases b <;> simp [hij, hj, hv, Ne.symm hij]

@[simp] theorem getLsbD_setC (b : Bool) (fl : Word) (j : Nat) :
    (setC b fl).getLsbD j = if j = 8 then b else fl.getLsbD j := getLsbD_putBit 8 j b fl (by decide)
@[simp] theorem getLsbD_setO (b : Bool) (fl : Word) (j : Nat) :
    (setO b fl).getLsbD j = if j = 9 then b else fl.getLsbD j := getLsbD_putBit 9 j b fl (by decide)
@[simp] theorem getLsbD_setS (b : Bool) (fl : Word) (j : Nat) :
    (setS b fl).getLsbD j = if j = 10 then b else fl.getLsbD j := getLsbD_putBit 10 j b fl (by decide)
@[simp] theorem getLsbD_setZ (b : Bool) (fl : Word) (j : Nat) :
    (setZ b fl).getLsbD j = if j = 11 then b else fl.getLsbD j := getLsbD_putBit 11 j b fl (by decide)

/-- The sign bit is the most significant bit. -/
@[simp] theorem signOf_eq_msb {w : Nat} (x : BitVec w) : signOf x = x.msb := by
  simp [signOf, BitVec.msb_eq_getLsbD_last]

@[simp] theorem getLsbD_setSZ {w : Nat} (res : BitVec w) (fl : Word) (j : Nat) :
    (setSZ res fl).getLsbD j = if j = 11 then res == 0#w else if j = 10 then res.msb else fl.getLsbD j := by
  simp [setSZ]

@[simp] theorem getLsbD_setOSZ {w : Nat} (o : Bool) (res : BitVec w) (fl : Word) (j : Nat) :
    (setOSZ o res fl).getLsbD j =
      if j = 11 then res == 0#w else if j = 10 then res.msb else if j = 9 then o else fl.getLsbD j := by
  simp [setOSZ]

@[simp] theorem getLsbD_setCOSZ {w : Nat} (c o : Bool) (res : BitVec w) (fl : Word) (j : Nat) :
    (setCOSZ c o res fl).getLsbD j =
      if j = 11 then res == 0#w else if j = 10 then res.msb else if j = 9 then o else if j = 8 then c
      else fl.getLsbD j := by
  simp [setCOSZ]

/-! The same for a bit named by a literal number, which `simp` writes `v[8]`. -/

@[simp] theorem getElem_setC (b : Bool) (fl : Word) (j : Nat) (h : j < 32) :
    (setC b fl)[j] = if j = 8 then b else fl[j] := by
  simp only [← BitVec.getLsbD_eq_getElem, getLsbD_setC]
@[simp] theorem getElem_setO (b : Bool) (fl : Word) (j : Nat) (h : j < 32) :
    (setO b fl)[j] = if j = 9 then b else fl[j] := by
  simp only [← BitVec.getLsbD_eq_getElem, getLsbD_setO]
@[simp] theorem getElem_setS (b : Bool) (fl : Word) (j : Nat) (h : j < 32) :
    (setS b fl)[j] = if j = 10 then b else fl[j] := by
  simp only [← BitVec.getLsbD_eq_getElem, getLsbD_setS]
@[simp] theorem getElem_setZ (b : Bool) (fl : Word) (j : Nat) (h : j < 32) :
    (setZ b fl)[j] = if j = 11 then b else fl[j] := by
  simp only [← BitVec.getLsbD_eq_getElem, getLsbD_setZ]

@[simp] theorem getElem_setSZ {w : Nat} (res : BitVec w) (fl : Word) (j : Nat) (h : j < 32) :
    (setSZ res fl)[j] = if j = 11 then res == 0#w else if j = 10 then res.msb else fl[j] := by
  simp only [← BitVec.getLsbD_eq_getElem, getLsbD_setSZ]

@[simp] theorem getElem_setOSZ {w : Nat} (o : Bool) (res : BitVec w) (fl : Word) (j : Nat) (h : j < 32) :
    (setOSZ o res fl)[j] =
      if j = 11 then res == 0#w else if j = 10 then res.msb else if j = 9 then o else fl[j] := by
  simp only [← BitVec.getLsbD_eq_getElem, getLsbD_setOSZ]

@[simp] theorem getElem_setCOSZ {w : Nat} (c o : Bool) (res : BitVec w) (fl : Word) (j : Nat) (h : j < 32) :
    (setCOSZ c o res fl)[j] =
      if j = 11 then res == 0#w else if j = 10 then res.msb else if j = 9 then o else if j = 8 then c else fl[j] := by
  simp only [← BitVec.getLsbD_eq_getElem, getLsbD_setCOSZ]

/-- The flags of a shift, by version (R120). -/
@[simp] theorem setShift_v0 {w : Nat} (c : Bool) (res : BitVec w) (fl : Word) : setShift true c res fl = setC c fl := rfl
@[simp] theorem setShift_v3plus {w : Nat} (c : Bool) (res : BitVec w) (fl : Word) :
    setShift false c res fl = setCOSZ c false res fl := rfl

/-- The flags of a bitwise operation, by version (R170). -/
@[simp] theorem setLogic_v0 (res fl : Word) : setLogic true res fl = fl := rfl
@[simp] theorem setLogic_v3plus (res fl : Word) : setLogic false res fl = setCOSZ false false res fl := rfl

end Sys2Proof.Machine
end

