-- ==== Sys2Proof/Laws/State.lean ====
section
/-! SUPPORT. One lemma per field per update of the state, and the register read after a write. -/

namespace Sys2Proof.Machine

@[simp] theorem State.setReg_flags (s : State) (i : Reg) (v : Word) : (s.setReg i v).flags = s.flags := rfl
@[simp] theorem State.setReg_pc (s : State) (i : Reg) (v : Word) : (s.setReg i v).pc = s.pc := rfl
@[simp] theorem State.setReg_code (s : State) (i : Reg) (v : Word) : (s.setReg i v).code = s.code := rfl
@[simp] theorem State.setReg_config (s : State) (i : Reg) (v : Word) : (s.setReg i v).config = s.config := rfl
@[simp] theorem State.setReg_isV0 (s : State) (i : Reg) (v : Word) : (s.setReg i v).isV0 = s.isV0 := rfl

@[simp] theorem State.setFlags_regs (s : State) (v : Word) : (s.setFlags v).regs = s.regs := rfl
@[simp] theorem State.setFlags_reg (s : State) (v : Word) (r : Reg) : (s.setFlags v).reg r = s.reg r := rfl
@[simp] theorem State.setFlags_flags (s : State) (v : Word) : (s.setFlags v).flags = v := rfl
@[simp] theorem State.setFlags_pc (s : State) (v : Word) : (s.setFlags v).pc = s.pc := rfl
@[simp] theorem State.setFlags_code (s : State) (v : Word) : (s.setFlags v).code = s.code := rfl
@[simp] theorem State.setFlags_config (s : State) (v : Word) : (s.setFlags v).config = s.config := rfl
@[simp] theorem State.setFlags_isV0 (s : State) (v : Word) : (s.setFlags v).isV0 = s.isV0 := rfl

@[simp] theorem State.advance_regs (s : State) (n : Nat) : (s.advance n).regs = s.regs := rfl
@[simp] theorem State.advance_reg (s : State) (n : Nat) (r : Reg) : (s.advance n).reg r = s.reg r := rfl
@[simp] theorem State.advance_flags (s : State) (n : Nat) : (s.advance n).flags = s.flags := rfl
@[simp] theorem State.advance_pc (s : State) (n : Nat) : (s.advance n).pc = s.pc + n := rfl
@[simp] theorem State.advance_code (s : State) (n : Nat) : (s.advance n).code = s.code := rfl
@[simp] theorem State.advance_config (s : State) (n : Nat) : (s.advance n).config = s.config := rfl
@[simp] theorem State.advance_isV0 (s : State) (n : Nat) : (s.advance n).isV0 = s.isV0 := rfl

/-- Reading a register after a write of any register. -/
theorem State.reg_setReg (s : State) (i r : Reg) (v : Word) :
    (s.setReg i v).reg r = if i = r then v else s.reg r := by
  simp [State.reg, State.setReg, Vector.getElem_set, Fin.ext_iff]

@[simp] theorem State.reg_setReg_same (s : State) (i : Reg) (v : Word) : (s.setReg i v).reg i = v := by
  simp [State.reg_setReg]

theorem State.reg_setReg_other (s : State) (i r : Reg) (v : Word) (h : i ≠ r) : (s.setReg i v).reg r = s.reg r := by
  simp [State.reg_setReg, h]

@[simp] theorem State.writeSized_flags (s : State) (sz : Size) (i : Reg) (v : BitVec (width sz)) :
    (s.writeSized sz i v).flags = s.flags := rfl
@[simp] theorem State.writeSized_pc (s : State) (sz : Size) (i : Reg) (v : BitVec (width sz)) :
    (s.writeSized sz i v).pc = s.pc := rfl
@[simp] theorem State.writeSized_code (s : State) (sz : Size) (i : Reg) (v : BitVec (width sz)) :
    (s.writeSized sz i v).code = s.code := rfl
@[simp] theorem State.writeSized_config (s : State) (sz : Size) (i : Reg) (v : BitVec (width sz)) :
    (s.writeSized sz i v).config = s.config := rfl
@[simp] theorem State.writeSized_isV0 (s : State) (sz : Size) (i : Reg) (v : BitVec (width sz)) :
    (s.writeSized sz i v).isV0 = s.isV0 := rfl

@[simp] theorem State.reg_writeSized_same (s : State) (sz : Size) (i : Reg) (v : BitVec (width sz)) :
    (s.writeSized sz i v).reg i = mergeSized sz (s.reg i) v := by
  simp [State.writeSized]

theorem State.reg_writeSized_other (s : State) (sz : Size) (i r : Reg) (v : BitVec (width sz)) (h : i ≠ r) :
    (s.writeSized sz i v).reg r = s.reg r := by
  simp [State.writeSized, State.reg_setReg_other, h]

end Sys2Proof.Machine
end

