-- ==== Sys2Proof/Laws/Operands.lean ====
section
/-! SUPPORT. Sized reads and writes, shift counts and bit indices, as arithmetic. -/

namespace Sys2Proof.Machine

theorem width_pos (sz : Size) : 0 < width sz := by cases sz <;> decide

theorem width_le (sz : Size) : width sz ≤ 32 := by cases sz <;> decide

@[simp] theorem getLsbD_lo (sz : Size) (v : Word) (j : Nat) :
    (lo sz v).getLsbD j = (decide (j < width sz) && v.getLsbD j) := by
  simp [lo]

theorem toNat_lo (sz : Size) (v : Word) : (lo sz v).toNat = v.toNat % 2 ^ width sz := by
  simp [lo]

/-- A sized write puts the value in the low bits and keeps the rest. -/
@[simp] theorem getLsbD_mergeSized (sz : Size) (old : Word) (v : BitVec (width sz)) (j : Nat) :
    (mergeSized sz old v).getLsbD j = if j < width sz then v.getLsbD j else old.getLsbD j := by
  have hw := width_le sz
  by_cases hj : j < width sz
  · have h32 : j < 32 := by omega
    simp [mergeSized, hj, h32]
  · by_cases h32 : j < 32
    · have hv : v.getLsbD j = false := BitVec.getLsbD_of_ge v j (by omega)
      simp [mergeSized, hj, h32, hv]
    · have ho : old.getLsbD j = false := BitVec.getLsbD_of_ge old j (by omega)
      simp [mergeSized, hj, h32, ho]

@[simp] theorem lo_mergeSized (sz : Size) (old : Word) (v : BitVec (width sz)) : lo sz (mergeSized sz old v) = v := by
  apply BitVec.eq_of_getLsbD_eq
  intro j hj
  rw [getLsbD_lo, getLsbD_mergeSized]
  simp only [hj, decide_true, Bool.true_and, if_true]

/-- The masked bit index is the remainder by 32. -/
theorem bitIndex_eq (v : Word) : bitIndex v = v.toNat % 32 := by
  simp only [bitIndex, BitVec.toNat_and]
  exact Nat.and_two_pow_sub_one_eq_mod v.toNat 5

/-- The masked shift count is the remainder by the operation size. -/
theorem shiftCount_eq (sz : Size) (v : Word) : shiftCount sz v = v.toNat % width sz := by
  cases sz <;> simp only [shiftCount, width, BitVec.toNat_and]
  · exact Nat.and_two_pow_sub_one_eq_mod v.toNat 3
  · exact Nat.and_two_pow_sub_one_eq_mod v.toNat 4
  · exact Nat.and_two_pow_sub_one_eq_mod v.toNat 5

theorem fieldLow_eq (v : Word) : fieldLow v = v.toNat % 32 := by
  simp [fieldLow, BitVec.extractLsb'_toNat]

theorem fieldSizem1_eq (v : Word) : fieldSizem1 v = v.toNat / 32 % 32 := by
  simp [fieldSizem1, BitVec.extractLsb'_toNat, Nat.shiftRight_eq_div_pow]

end Sys2Proof.Machine
end

