-- ==== Sys2Proof/Laws/Frames.lean ====
section
/-! SUPPORT. What each shape of completed instruction leaves unchanged: the state updates every meaning ends in. -/

namespace Sys2Proof.Machine

/-- Nothing but `pc`. -/
theorem OnlyChanges.advance (s : State) (len : Nat) : OnlyChanges s (s.advance len) none [] len :=
  ⟨fun _ _ => rfl, fun _ _ => rfl, fun _ => rfl, rfl, rfl, rfl⟩

/-- A register written whole. -/
theorem OnlyChanges.setReg (s : State) (d : Reg) (v : Word) (len : Nat) :
    OnlyChanges s ((s.setReg d v).advance len) (some d) [] len where
  regs r h := State.reg_setReg_other s d r v (by simpa using h)
  flags _ _ := rfl
  bytes _ := rfl
  size := rfl
  config := rfl
  pc := rfl

/-- A sized write of a register. -/
theorem OnlyChanges.writeSized (s : State) (sz : Size) (d : Reg) (v : BitVec (width sz)) (len : Nat) :
    OnlyChanges s ((s.writeSized sz d v).advance len) (some d) [] len :=
  OnlyChanges.setReg s d (mergeSized sz (s.reg d) v) len

/-- Flags written, in the bits listed, after whatever else: the registers are those of the state before it. -/
theorem OnlyChanges.setFlags {s u : State} {dst : Option Reg} {bits : List Nat} {len : Nat} (fl : Word)
    (hu : OnlyChanges s (u.advance len) dst [] len) (h : ∀ j, j ∉ bits → fl.getLsbD j = s.flags.getLsbD j) :
    OnlyChanges s ((u.setFlags fl).advance len) dst bits len where
  regs := hu.regs
  flags := h
  bytes := hu.bytes
  size := hu.size
  config := hu.config
  pc := hu.pc

/-- A frame with fewer flag bits is a frame with more. -/
theorem OnlyChanges.mono {s t : State} {dst : Option Reg} {bits bits' : List Nat} {len : Nat}
    (h : OnlyChanges s t dst bits len) (hb : ∀ j, j ∈ bits → j ∈ bits') : OnlyChanges s t dst bits' len :=
  { h with flags := fun j hj => h.flags j (fun hm => hj (hb j hm)) }

/-- A sized write keeps the high bits of its register. -/
theorem KeepsHigh.writeSized (s : State) (sz : Size) (d : Reg) (v : BitVec (width sz)) :
    KeepsHigh sz d s (s.writeSized sz d v) := by
  intro j hj
  rw [State.reg_writeSized_same, getLsbD_mergeSized, if_neg (by omega)]

/-- Flags are no register. -/
theorem KeepsHigh.setFlags {sz : Size} {r : Reg} {s u : State} (fl : Word) (h : KeepsHigh sz r s u) :
    KeepsHigh sz r s (u.setFlags fl) := h

/-- `pc` is no register. -/
theorem KeepsHigh.advance {sz : Size} {r : Reg} {s u : State} (len : Nat) (h : KeepsHigh sz r s u) :
    KeepsHigh sz r s (u.advance len) := h

end Sys2Proof.Machine
end

