-- ==== Sys2Proof/Laws/Memory.lean ====
section
/-! SUPPORT. The code image: read after write, the canonical form, and what fetch reads. -/

namespace Sys2Proof.Machine

theorem cellAt_putCell (a b : Nat) (v : Byte) (cs : List Host.Cell) :
    cellAt b (putCell a v cs) = if a = b then some v else cellAt b cs := by
  induction cs with
  | nil => simp [putCell, cellAt]
  | cons c rest ih =>
    simp only [putCell]
    split
    · simp [cellAt]
    · split
      · simp only [cellAt]; split <;> grind
      · simp only [cellAt, ih]; split <;> grind

/-- A byte reads back as written, and every other byte as before. -/
theorem Memory.read_write (m : Memory) (a b : Nat) (v : Byte) :
    (m.write a v).read b = if a = b then some v else m.read b :=
  cellAt_putCell a b v m.cells

theorem mem_putCell (a : Nat) (v : Byte) (cs : List Host.Cell) (c : Host.Cell) (h : c ∈ putCell a v cs) :
    c = (a, v) ∨ c ∈ cs := by
  induction cs with
  | nil => simpa [putCell] using h
  | cons d rest ih =>
    simp only [putCell] at h
    split at h
    · simpa using h
    · split at h <;> grind

/-- A write keeps the canonical form. -/
theorem Memory.write_wf (m : Memory) (a : Nat) (v : Byte) (h : m.wf) : (m.write a v).wf := by
  obtain ⟨cs⟩ := m
  simp only [Memory.wf, Memory.write] at *
  induction cs with
  | nil => simp [putCell]
  | cons c rest ih =>
    rw [List.pairwise_cons] at h
    simp only [putCell]
    split
    · rename_i hlt
      exact List.pairwise_cons.2 ⟨by grind, List.pairwise_cons.2 h⟩
    · split
      · exact List.pairwise_cons.2 ⟨by grind, h.2⟩
      · refine List.pairwise_cons.2 ⟨fun d hd => ?_, ih h.2⟩
        have := mem_putCell a v rest d hd
        grind

/-- Storing bytes keeps the canonical form. -/
theorem Memory.writeBytes_wf (bs : List Byte) (m : Memory) (a : Nat) (h : m.wf) : (m.writeBytes a bs).wf := by
  induction bs generalizing m a with
  | nil => exact h
  | cons b rest ih => exact ih _ _ (m.write_wf a b h)

/-- A byte string is a canonical image. -/
theorem Memory.ofBytes_wf (bs : List Byte) : (Memory.ofBytes bs).wf :=
  Memory.writeBytes_wf bs _ _ (by simp [Memory.wf])

/-- Bytes stored from `a` on read back, and every other byte as before. -/
theorem Memory.read_writeBytes (bs : List Byte) (m : Memory) (a b : Nat) :
    (m.writeBytes a bs).read b = if a ≤ b ∧ b < a + bs.length then bs[b - a]? else m.read b := by
  induction bs generalizing m a with
  | nil => simp [Memory.writeBytes]
  | cons x rest ih =>
    simp only [Memory.writeBytes, ih, Memory.read_write, List.length_cons]
    by_cases h : a = b
    · subst h; simp
    · by_cases h2 : a + 1 ≤ b ∧ b < a + 1 + rest.length
      · have h3 : b - a = (b - (a + 1)) + 1 := by omega
        rw [if_pos h2, if_pos (by omega), h3, List.getElem?_cons_succ]
      · rw [if_neg h2, if_neg (by omega), if_neg (by omega)]

/-- An offset that holds a byte lies before the end of the image. -/
theorem Memory.read_lt_size (m : Memory) (a : Nat) (b : Byte) (h : m.read a = some b) : a < m.size := by
  obtain ⟨cs⟩ := m
  simp only [Memory.read, Memory.size] at *
  induction cs with
  | nil => simp [cellAt] at h
  | cons c rest ih =>
    simp only [cellAt, cellsEnd] at *
    split at h
    · omega
    · have := ih h; omega

/-- The bytes of a byte string read back from offset 0. -/
theorem Memory.read_ofBytes (bs : List Byte) (a : Nat) : (Memory.ofBytes bs).read a = bs[a]? := by
  simp only [Memory.ofBytes, Memory.read_writeBytes]
  split
  · simp
  · rename_i h
    have : bs.length ≤ a := by omega
    simp [this, Memory.read, cellAt]

/-- What reading up to `n` bytes gives is there to read, offset by offset. -/
theorem Memory.readUpTo_spec (m : Memory) (n a k : Nat) (h : k < (m.readUpTo a n).length) :
    m.read (a + k) = (m.readUpTo a n)[k]? := by
  induction n generalizing a k with
  | zero => simp [Memory.readUpTo] at h
  | succ n ih =>
    simp only [Memory.readUpTo] at h ⊢
    split at h
    · simp at h
    · rename_i b hb
      cases k with
      | zero => simpa using hb
      | succ k =>
        have := ih (a + 1) k (by simpa using h)
        rw [List.getElem?_cons_succ, ← this]
        congr 1; omega

/-- The bytes fetched end inside the image. -/
theorem Memory.readUpTo_end (m : Memory) (n a : Nat) (h : m.readUpTo a n ≠ []) :
    a + (m.readUpTo a n).length ≤ m.size := by
  have hpos : 0 < (m.readUpTo a n).length := List.length_pos_iff.2 h
  have hr := m.readUpTo_spec n a ((m.readUpTo a n).length - 1) (by omega)
  rw [List.getElem?_eq_getElem (by omega)] at hr
  have := m.read_lt_size _ _ hr
  omega

end Sys2Proof.Machine
end

