-- ==== Sys2Proof/Laws/Ops.lean ====
section
/-! SUPPORT. What each shared operation of a meaning can answer. -/

namespace Sys2Proof.Machine

/-- Completion answers the next state and nothing else. -/
@[simp] theorem State.done_eq (s : State) (n : Nat) : s.done n = .next (s.advance n) := rfl

/-- A version-guarded meaning answers a next state only on v3+, and then its own. -/
theorem onlyV3plus_next (s t : State) (m : Result) (h : onlyV3plus s m = .next t) : s.isV0 = false ∧ m = .next t := by
  unfold onlyV3plus at h
  split at h
  · cases h
  · exact ⟨by simpa using ‹¬s.isV0 = true›, h⟩

@[simp] theorem onlyV3plus_of_v3plus (s : State) (m : Result) (h : s.isV0 = false) : onlyV3plus s m = m := by
  simp [onlyV3plus, h]

@[simp] theorem onlyV3plus_of_v0 (s : State) (m : Result) (h : s.isV0 = true) :
    onlyV3plus s m = .refused .notPresentOnVersion := by
  simp [onlyV3plus, h]

/-- A v0-only meaning answers a next state only on v0, and then its own. -/
theorem onlyV0_next (s t : State) (m : Result) (h : onlyV0 s m = .next t) : s.isV0 = true ∧ m = .next t := by
  unfold onlyV0 at h
  split at h
  · exact ⟨‹_›, h⟩
  · cases h

@[simp] theorem onlyV0_of_v0 (s : State) (m : Result) (h : s.isV0 = true) : onlyV0 s m = m := by
  simp [onlyV0, h]

@[simp] theorem onlyV0_of_v3plus (s : State) (m : Result) (h : s.isV0 = false) :
    onlyV0 s m = .refused .notPresentOnVersion := by
  simp [onlyV0, h]

/-- An access to a `$flags` bit answers a next state only where the bit is usable, and then its own. -/
theorem onFlagsBit_next (s t : State) (bit : Nat) (m : Result) (h : onFlagsBit s bit m = .next t) :
    s.flagsBitUsable bit = true ∧ m = .next t := by
  unfold onFlagsBit at h
  split at h
  · exact ⟨‹_›, h⟩
  · cases h

/-- A `$flags` bit is usable exactly under the plain-storage reading or inside the mask. -/
theorem State.flagsBitUsable_iff (s : State) (bit : Nat) :
    s.flagsBitUsable bit = true ↔
      (s.config.flagsOutside = .plainStorage ∨ s.config.flagsDefinedMask.getLsbD bit = true) := by
  unfold State.flagsBitUsable
  split <;> simp [*]

/-- An access to a `$flags` bit is refused for its bit exactly where the bit is not usable: the conservative reading is
chosen and the bit is outside the mask. -/
theorem onFlagsBit_refused_iff (s : State) (bit : Nat) (m : Result) (hm : m ≠ .refused .flagsBitOutsideMask) :
    onFlagsBit s bit m = .refused .flagsBitOutsideMask ↔
      s.config.flagsOutside = .refuse ∧ s.config.flagsDefinedMask.getLsbD bit = false := by
  unfold onFlagsBit State.flagsBitUsable
  cases s.config.flagsOutside <;> simp [hm]

/-- The machine is on v0 exactly when its parameter says so. -/
theorem State.isV0_iff (s : State) : s.isV0 = true ↔ s.config.falconVersion = .v0 := by
  unfold State.isV0 FalconVersion.isV0
  cases s.config.falconVersion <;> simp [FalconVersion.number]

/-- The bytes fetched at `pc` end inside the image. -/
theorem State.fetchBytes_end (s : State) (h : s.fetchBytes ≠ []) : s.pc + s.fetchBytes.length ≤ s.code.size :=
  s.code.readUpTo_end _ _ h

/-- The state after reset has a canonical image. -/
theorem State.reset_code_wf : State.reset.code.wf := by decide

end Sys2Proof.Machine
end

