-- ==== Sys2Proof/Laws/PerInstr.lean ====
section
/-! SUPPORT. A fact about every instruction, one lemma per constructor: its encoding has its length (R75). -/

namespace Sys2Proof.Laws.EncodeLength

/-- The encoding of `i` has `i.len` bytes, and `i.len` is 2, 3 or 4 (R70). -/
def Statement (i : Instr) : Prop := (encode i).length = i.len ∧ 2 ≤ i.len ∧ i.len ≤ 4

theorem sizedAlu (sz : Size) (sub : BitVec 4) (f : AluForm) :
    (encodeSizedAlu sz sub f).length = f.len ∧ 2 ≤ f.len ∧ f.len ≤ 4 := by
  cases f <;> exact ⟨rfl, Nat.le_of_ble_eq_true rfl, Nat.le_of_ble_eq_true rfl⟩

theorem unsizedAlu (sub : BitVec 4) (f : AluForm) :
    (encodeUnsizedAlu sub f).length = f.len ∧ 2 ≤ f.len ∧ f.len ≤ 4 := by
  cases f <;> exact ⟨rfl, Nat.le_of_ble_eq_true rfl, Nat.le_of_ble_eq_true rfl⟩

theorem compare (sz : Size) (sub : BitVec 4) (f : CmpForm) :
    (encodeCmp sz sub f).length = f.len ∧ 2 ≤ f.len ∧ f.len ≤ 4 := by
  cases f <;> exact ⟨rfl, Nat.le_of_ble_eq_true rfl, Nat.le_of_ble_eq_true rfl⟩

theorem unary (sz : Size) (sub : BitVec 4) (f : UnaryForm) :
    (encodeUnary sz sub f).length = f.len ∧ 2 ≤ f.len ∧ f.len ≤ 4 := by
  cases f <;> exact ⟨rfl, Nat.le_of_ble_eq_true rfl, Nat.le_of_ble_eq_true rfl⟩

theorem oneReg (sz : Size) (sub : BitVec 4) (r2 : Reg) :
    (encodeOneReg sz sub r2).length = oneRegLen ∧ 2 ≤ oneRegLen ∧ oneRegLen ≤ 4 :=
  ⟨rfl, Nat.le_of_ble_eq_true rfl, Nat.le_of_ble_eq_true rfl⟩

theorem imm (sub : BitVec 4) (f : ImmForm) : (encodeImm sub f).length = f.len ∧ 2 ≤ f.len ∧ f.len ≤ 4 := by
  cases f <;> exact ⟨rfl, Nat.le_of_ble_eq_true rfl, Nat.le_of_ble_eq_true rfl⟩

theorem bitOp (sub : BitVec 4) (wide : Byte) (f : BitForm) :
    (encodeBit sub wide f).length = f.len ∧ 2 ≤ f.len ∧ f.len ≤ 4 := by
  cases f <;> exact ⟨rfl, Nat.le_of_ble_eq_true rfl, Nat.le_of_ble_eq_true rfl⟩

theorem cmpu (sz : Size) (f : CmpForm) : Statement (.cmpu sz f) := compare sz _ f
theorem cmps (sz : Size) (f : CmpForm) : Statement (.cmps sz f) := compare sz _ f
theorem cmp (sz : Size) (f : CmpForm) : Statement (.cmp sz f) := compare sz _ f
theorem add (sz : Size) (f : AluForm) : Statement (.add sz f) := sizedAlu sz _ f
theorem adc (sz : Size) (f : AluForm) : Statement (.adc sz f) := sizedAlu sz _ f
theorem sub (sz : Size) (f : AluForm) : Statement (.sub sz f) := sizedAlu sz _ f
theorem sbb (sz : Size) (f : AluForm) : Statement (.sbb sz f) := sizedAlu sz _ f
theorem shl (sz : Size) (f : ShiftForm) : Statement (.shl sz f) := sizedAlu sz _ f.toAlu
theorem shr (sz : Size) (f : ShiftForm) : Statement (.shr sz f) := sizedAlu sz _ f.toAlu
theorem sar (sz : Size) (f : ShiftForm) : Statement (.sar sz f) := sizedAlu sz _ f.toAlu
theorem shlc (sz : Size) (f : ShiftForm) : Statement (.shlc sz f) := sizedAlu sz _ f.toAlu
theorem shrc (sz : Size) (f : ShiftForm) : Statement (.shrc sz f) := sizedAlu sz _ f.toAlu
theorem not (sz : Size) (f : UnaryForm) : Statement (.not sz f) := unary sz _ f
theorem neg (sz : Size) (f : UnaryForm) : Statement (.neg sz f) := unary sz _ f
theorem movf (sz : Size) (f : UnaryForm) : Statement (.movf sz f) := unary sz _ f
theorem movReg (sz : Size) (f : UnaryForm) : Statement (.movReg sz f) := unary sz _ f
theorem hswap (sz : Size) (f : UnaryForm) : Statement (.hswap sz f) := unary sz _ f
theorem movImm (f : ImmForm) : Statement (.movImm f) := imm _ f
theorem sethi (f : ImmForm) : Statement (.sethi f) := imm _ f
theorem clear (sz : Size) (r2 : Reg) : Statement (.clear sz r2) := oneReg sz _ r2
theorem setf (sz : Size) (r2 : Reg) : Statement (.setf sz r2) := oneReg sz _ r2
theorem mulu (f : AluForm) : Statement (.mulu f) := unsizedAlu _ f
theorem muls (f : AluForm) : Statement (.muls f) := unsizedAlu _ f
theorem sext (f : ShiftForm) : Statement (.sext f) := unsizedAlu _ f.toAlu
theorem extr (f : FieldForm) : Statement (.extr f) := unsizedAlu _ f.toAlu
theorem extrs (f : FieldForm) : Statement (.extrs f) := unsizedAlu _ f.toAlu
theorem ins (f : InsForm) : Statement (.ins f) := unsizedAlu _ f.toAlu
theorem and (f : AluForm) : Statement (.and f) := unsizedAlu _ f
theorem or (f : AluForm) : Statement (.or f) := unsizedAlu _ f
theorem xor (f : AluForm) : Statement (.xor f) := unsizedAlu _ f
theorem xbit (f : XbitForm) : Statement (.xbit f) := by
  cases f <;> exact ⟨rfl, Nat.le_of_ble_eq_true rfl, Nat.le_of_ble_eq_true rfl⟩
theorem bset (f : BitForm) : Statement (.bset f) := bitOp _ _ f
theorem bclr (f : BitForm) : Statement (.bclr f) := bitOp _ _ f
theorem btgl (f : BitForm) : Statement (.btgl f) := bitOp _ _ f
theorem div (f : FieldForm) : Statement (.div f) := unsizedAlu _ f.toAlu
theorem mod (f : FieldForm) : Statement (.mod f) := unsizedAlu _ f.toAlu
theorem setp (f : SetpForm) : Statement (.setp f) := by
  cases f <;> exact ⟨rfl, Nat.le_of_ble_eq_true rfl, Nat.le_of_ble_eq_true rfl⟩

end Sys2Proof.Laws.EncodeLength
end

