-- ==== Sys2Proof/Tests/Slice0.lean ====
section
/-! SUPPORT. Tests: what well-formedness refuses, decoding, one step of each instruction, and states that meet the
hypotheses of the obligations. Expected values are those of spec/95_test_vectors.md; the words of the decoding
tests are written out from 30_encoding.md R70 to R76. -/

namespace Sys2Proof.Tests

open Sys2Proof.Machine

abbrev v3 : FalconVersion := .v3plus 0

/-- A state on version `v` whose whole image is `bytes`, with the registers listed, zero in the others. -/
def machine (v : FalconVersion) (regs : List (Reg × Word)) (flags : Word) (bytes : List Byte) : State :=
  { regs := regs.foldl (fun r p => r.set p.1.val p.2) (Vector.replicate 16 0), flags := flags, pc := 0,
    code := Memory.ofBytes bytes, config := { Config.default with falconVersion := v } }

/-- One step of `s` leaves the registers listed, zero in the others, these flags and this `pc`. -/
def leaves (s : State) (regs : List (Reg × Word)) (flags : Word) (pc : Nat) : Bool :=
  match step s with
  | .next t =>
    t.regs.toList == (machine v3 regs 0 []).regs.toList && t.flags == flags && t.pc == pc &&
      t.code == s.code && t.config == s.config
  | .fault _ => false
  | .refused _ => false

/-- `bytes` decode to `i` on version `v`. -/
def decodesTo (v : FalconVersion) (bytes : List Byte) (i : Instr) : Bool :=
  match decode v bytes with
  | .ok j => j == i
  | .error _ => false

/-- `bytes` are refused on version `v` for the reason `e`. -/
def decodeFails (v : FalconVersion) (bytes : List Byte) (e : DecodeError) : Bool :=
  match decode v bytes with
  | .ok _ => false
  | .error d => d == e

/-- One step of `s` is refused for the reason `e`. -/
def stepRefused (s : State) (e : Refusal) : Bool :=
  match step s with
  | .next _ => false
  | .fault _ => false
  | .refused r => r == e

/-! Well-formedness: one check, presence on the version (R66), with a term it refuses on either side. -/

theorem test_wellFormed_refuses_v3plus_only_on_v0 : (Instr.cmp .b8 (.r2i8 0 0)).wellFormed .v0 = false := by decide

theorem test_wellFormed_refuses_v0_only_on_v3plus : (Instr.movf .b32 (.r2r2 7)).wellFormed v3 = false := by decide

theorem test_wellFormed_accepts : (Instr.movf .b32 (.r2r2 7)).wellFormed .v0 = true ∧
    (Instr.movReg .b32 (.r2r2 7)).wellFormed v3 = true ∧ (Instr.setp (.r2i8 2 8)).wellFormed .v0 = true := by decide

/-! Decoding: every constructor, and between them every opcode of R63. -/

theorem test_decode_compare :
    decodesTo v3 [0xb8#8, 0x21, 0x04] (.cmpu .b32 (.r2r1 2 1)) = true ∧
    decodesTo v3 [0x30#8, 0xf5, 0x80] (.cmps .b8 (.r2i8 15 0x80)) = true ∧
    decodesTo v3 [0x71#8, 0x66, 0x01, 0x00] (.cmp .b16 (.r2i16 6 1)) = true := by decide

theorem test_decode_addSub :
    decodesTo v3 [0x10#8, 0x2f, 0x01] (.add .b8 (.r1r2i8 15 2 1)) = true ∧
    decodesTo v3 [0x61#8, 0xe1, 0x34, 0x12] (.adc .b16 (.r1r2i16 1 14 0x1234)) = true ∧
    decodesTo v3 [0xb6#8, 0xd2, 0xff] (.sub .b32 (.r2r2i8 13 0xff)) = true ∧
    decodesTo v3 [0x77#8, 0x23, 0x00, 0x80] (.sbb .b16 (.r2r2i16 2 0x8000)) = true ∧
    decodesTo v3 [0xbb#8, 0x21, 0x00] (.add .b32 (.r2r2r1 2 1)) = true ∧
    decodesTo v3 [0x3c#8, 0x21, 0x33] (.sbb .b8 (.r3r2r1 3 2 1)) = true := by decide

theorem test_decode_shift :
    decodesTo v3 [0x94#8, 0x21, 0x04] (.shl .b32 (.r1r2i8 1 2 4)) = true ∧
    decodesTo v3 [0x76#8, 0x25, 0x08] (.shr .b16 (.r2r2i8 2 8)) = true ∧
    decodesTo v3 [0x3b#8, 0xc9, 0x06] (.sar .b8 (.r2r2r1 12 9)) = true ∧
    decodesTo v3 [0xbc#8, 0x21, 0x3c] (.shlc .b32 (.r3r2r1 3 2 1)) = true ∧
    decodesTo v3 [0x1d#8, 0x21, 0x01] (.shrc .b8 (.r1r2i8 1 2 1)) = true := by decide

theorem test_decode_unary :
    decodesTo v3 [0x3d#8, 0xf0] (.not .b8 (.r2r2 15)) = true ∧
    decodesTo v3 [0xb9#8, 0x21, 0x01] (.neg .b32 (.r1r2 1 2)) = true ∧
    decodesTo v3 [0x79#8, 0x21, 0x02] (.movReg .b16 (.r1r2 1 2)) = true ∧
    decodesTo v3 [0x7d#8, 0x23] (.hswap .b16 (.r2r2 2)) = true := by decide

theorem test_decode_loadImm :
    decodesTo v3 [0xf0#8, 0x37, 0x80] (.movImm (.r2i8 3 0x80)) = true ∧
    decodesTo v3 [0xf1#8, 0x33, 0xad, 0xde] (.sethi (.r2i16 3 0xdead)) = true ∧
    decodesTo v3 [0xbd#8, 0x44] (.clear .b32 4) = true ∧
    decodesTo v3 [0x7d#8, 0xf5] (.setf .b16 15) = true := by decide

theorem test_decode_mul :
    decodesTo v3 [0xe0#8, 0x21, 0xff, 0xfe] (.mulu (.r1r2i16 1 2 0xfeff)) = true ∧
    decodesTo v3 [0xf0#8, 0x21, 0x80] (.muls (.r2r2i8 2 0x80)) = true := by decide

theorem test_decode_bitfield :
    decodesTo v3 [0xfd#8, 0x21, 0x02] (.sext (.r2r2r1 2 1)) = true ∧
    decodesTo v3 [0xff#8, 0x21, 0x37] (.extr (.r3r2r1 3 2 1)) = true ∧
    decodesTo v3 [0xe3#8, 0x21, 0xe4, 0x00] (.extrs (.r1r2i16 1 2 0x00e4)) = true ∧
    decodesTo v3 [0xcb#8, 0x21, 0x1f] (.ins (.r1r2i8 1 2 0x1f)) = true := by decide

theorem test_decode_logic :
    decodesTo v3 [0xf1#8, 0x24, 0x00, 0x80] (.and (.r2r2i16 2 0x8000)) = true ∧
    decodesTo v3 [0xc5#8, 0x2f, 0xff] (.or (.r1r2i8 15 2 0xff)) = true ∧
    decodesTo v3 [0xff#8, 0x21, 0x36] (.xor (.r3r2r1 3 2 1)) = true := by decide

theorem test_decode_bit :
    decodesTo v3 [0xf0#8, 0x2c, 0x08] (.xbit (.r2flagsi8 2 8)) = true ∧
    decodesTo v3 [0xfe#8, 0x21, 0x0c] (.xbit (.r1flagsr2 1 2)) = true ∧
    decodesTo v3 [0xf4#8, 0x31, 0x08] (.bset (.flagsi8 8)) = true ∧
    decodesTo v3 [0xf9#8, 0x2a] (.bclr (.flagsr2 2)) = true ∧
    decodesTo v3 [0xfd#8, 0x21, 0x0b] (.btgl (.r2r1 2 1)) = true := by decide

theorem test_decode_divSetp :
    decodesTo v3 [0xcc#8, 0x21, 0x07] (.div (.r1r2i8 1 2 7)) = true ∧
    decodesTo v3 [0xed#8, 0x21, 0xe8, 0x03] (.mod (.r1r2i16 1 2 0x03e8)) = true ∧
    decodesTo v3 [0xf2#8, 0x28, 0x08] (.setp (.r2i8 2 8)) = true ∧
    decodesTo v3 [0xfa#8, 0x21, 0x08] (.setp (.r2r1 2 1)) = true := by decide

theorem test_decode_shared_encoding_on_v0 :
    decodesTo .v0 [0x79#8, 0x21, 0x02] (.movf .b16 (.r1r2 1 2)) = true := by decide

theorem test_decode_refuses_unlisted :
    decodeFails v3 [0x80#8, 0x00, 0x00] .notAnInstruction = true ∧
    decodeFails v3 [0xd0#8, 0x21, 0x05] .notAnInstruction = true ∧
    decodeFails v3 [0xf8#8, 0x00] .notAnInstruction = true ∧
    decodeFails v3 [0xb2#8, 0x21, 0x05] .notAnInstruction = true ∧
    decodeFails v3 [0xb8#8, 0x21, 0x07] .notAnInstruction = true ∧
    decodeFails v3 [0xf4#8, 0x30, 0x08] .notAnInstruction = true ∧
    decodeFails v3 [0xf4#8, 0x09, 0x08] .notAnInstruction = true ∧
    decodeFails v3 [0xf1#8, 0x22, 0x07, 0x00] .notAnInstruction = true ∧
    decodeFails v3 [0x97#8, 0x21, 0x01] .notAnInstruction = true := by decide

theorem test_decode_refuses_unused_bits :
    decodeFails v3 [0xb8#8, 0x21, 0x14] .unusedBitsSet = true ∧
    decodeFails v3 [0xf4#8, 0x71, 0x08] .unusedBitsSet = true := by decide

theorem test_decode_refuses_truncated :
    decodeFails v3 [0xb0#8, 0x24] .runsPastCodeImage = true ∧
    decodeFails v3 [0xf1#8, 0x37, 0x00] .runsPastCodeImage = true := by decide

theorem test_decode_refuses_absent : decodeFails .v0 [0xbd#8, 0x45] .notPresentOnVersion = true := by decide

/-- Opcode-table words: the row of `add` on opcode 0x10 at size 8, and the shortest and longest instructions. -/
theorem test_decodeTableWord :
    decodeTableWord 24 0x012110 = some (.add .b8 (.r1r2i8 1 2 1)) ∧
    decodeTableWord 16 0x44bd = some (.clear .b32 4) ∧
    decodeTableWord 16 0x21e0 = some (.mulu (.r1r2i16 1 2 0)) := by decide

theorem test_withFetchWord_runs_the_word :
    leaves (State.reset.withFetchWord 32 0x8000_37f1) [(3, 0xFFFF8000)] 0 4 = true := by decide

/-! One step of each instruction, from the vectors of spec/95_test_vectors.md. -/

theorem test_cmpu_orders_unsigned :
    leaves (machine v3 [(1, 0x7), (2, 0x5)] 0x0 [0xb8#8, 0x21, 0x04])
      [(1, 0x7), (2, 0x5)] 0x100 3 = true := by decide
theorem test_cmpu_byte_ignores_high_bits :
    leaves (machine v3 [(2, 0x12345680)] 0x0 [0x30#8, 0x24, 0x01])
      [(2, 0x12345680)] 0x0 3 = true := by decide
theorem test_cmps_orders_signed :
    leaves (machine v3 [(1, 0x1), (2, 0x80000000)] 0x0 [0xb8#8, 0x21, 0x05])
      [(1, 0x1), (2, 0x80000000)] 0x100 3 = true := by decide
theorem test_cmps_sign_extends_immediate :
    leaves (machine v3 [(2, 0xFFFFFFFE)] 0x0 [0xb0#8, 0x25, 0xff])
      [(2, 0xFFFFFFFE)] 0x100 3 = true := by decide
theorem test_cmp_overflows_at_half :
    leaves (machine v3 [(6, 0x8000)] 0x0 [0x71#8, 0x66, 0x01, 0x00])
      [(6, 0x8000)] 0x200 4 = true := by decide
theorem test_cmp_borrows :
    leaves (machine v3 [(1, 0x7), (2, 0x5)] 0x0 [0xb8#8, 0x21, 0x06])
      [(1, 0x7), (2, 0x5)] 0x500 3 = true := by decide
theorem test_add_signed_overflow :
    leaves (machine v3 [(1, 0x1), (2, 0x7FFFFFFF)] 0x0 [0xbc#8, 0x21, 0x30])
      [(1, 0x1), (2, 0x7FFFFFFF), (3, 0x80000000)] 0x600 3 = true := by decide
theorem test_add_byte_wraps_and_keeps_high :
    leaves (machine v3 [(1, 0xAABBCCDD), (2, 0x123456FF)] 0x0 [0x10#8, 0x21, 0x01])
      [(1, 0xAABBCC00), (2, 0x123456FF)] 0x900 3 = true := by decide
theorem test_adc_carry_in_wraps :
    leaves (machine v3 [(1, 0x0), (2, 0xFFFFFFFF)] 0x100 [0xbc#8, 0x21, 0x31])
      [(1, 0x0), (2, 0xFFFFFFFF), (3, 0x0)] 0x900 3 = true := by decide
theorem test_adc_overflow_through_carry :
    leaves (machine v3 [(1, 0x0), (2, 0x7FFFFFFF)] 0x100 [0xbc#8, 0x21, 0x31])
      [(1, 0x0), (2, 0x7FFFFFFF), (3, 0x80000000)] 0x600 3 = true := by decide
theorem test_sub_borrows :
    leaves (machine v3 [(1, 0x7), (2, 0x5)] 0x0 [0xbc#8, 0x21, 0x32])
      [(1, 0x7), (2, 0x5), (3, 0xFFFFFFFE)] 0x500 3 = true := by decide
theorem test_sub_byte_wraps :
    leaves (machine v3 [(1, 0xAABBCC00), (2, 0x100)] 0x0 [0x12#8, 0x21, 0x01])
      [(1, 0xAABBCCFF), (2, 0x100)] 0x500 3 = true := by decide
theorem test_sbb_borrow_in :
    leaves (machine v3 [(1, 0x0), (2, 0x0)] 0x100 [0xbc#8, 0x21, 0x33])
      [(1, 0x0), (2, 0x0), (3, 0xFFFFFFFF)] 0x500 3 = true := by decide
theorem test_sbb_borrow_in_and_out :
    leaves (machine v3 [(1, 0xFFFFFFFF), (2, 0x0)] 0x100 [0xbc#8, 0x21, 0x33])
      [(1, 0xFFFFFFFF), (2, 0x0), (3, 0x0)] 0x900 3 = true := by decide
theorem test_shl_last_bit_out_v0 :
    leaves (machine .v0 [(2, 0x10000001)] 0xE00 [0x94#8, 0x21, 0x04])
      [(1, 0x10), (2, 0x10000001)] 0xF00 3 = true := by decide
theorem test_shl_byte_masks_count :
    leaves (machine v3 [(1, 0xFFFFFFFF), (2, 0xC1)] 0x0 [0x14#8, 0x21, 0x09])
      [(1, 0xFFFFFF82), (2, 0xC1)] 0x500 3 = true := by decide
theorem test_shr_count_31 :
    leaves (machine v3 [(2, 0x80000000)] 0x0 [0x95#8, 0x21, 0x1f])
      [(1, 0x1), (2, 0x80000000)] 0x0 3 = true := by decide
theorem test_shr_half_keeps_high :
    leaves (machine v3 [(2, 0xFFFF1234)] 0x0 [0x76#8, 0x25, 0x08])
      [(2, 0xFFFF0012)] 0x0 3 = true := by decide
theorem test_sar_byte_fills :
    leaves (machine v3 [(1, 0x0), (2, 0x5580)] 0x0 [0x16#8, 0x21, 0x07])
      [(1, 0xFF), (2, 0x5580)] 0x400 3 = true := by decide
theorem test_sar_count_zero :
    leaves (machine v3 [(2, 0x80000000)] 0x100 [0x96#8, 0x21, 0x00])
      [(1, 0x80000000), (2, 0x80000000)] 0x400 3 = true := by decide
theorem test_shlc_carry_enters :
    leaves (machine v3 [(2, 0x1)] 0x100 [0x9c#8, 0x21, 0x04])
      [(1, 0x18), (2, 0x1)] 0x0 3 = true := by decide
theorem test_shlc_count_zero :
    leaves (machine v3 [(2, 0x1)] 0x100 [0x9c#8, 0x21, 0x00])
      [(1, 0x1), (2, 0x1)] 0x0 3 = true := by decide
theorem test_shrc_byte_carry_enters :
    leaves (machine v3 [(1, 0x0), (2, 0x2)] 0x100 [0x1d#8, 0x21, 0x01])
      [(1, 0x81), (2, 0x2)] 0x400 3 = true := by decide
theorem test_shrc_word_carry_enters :
    leaves (machine v3 [(2, 0xF0)] 0x100 [0x9d#8, 0x21, 0x04])
      [(1, 0x1000000F), (2, 0xF0)] 0x0 3 = true := by decide
theorem test_not_half :
    leaves (machine v3 [(1, 0xAAAA0000), (2, 0xFF00)] 0x0 [0x79#8, 0x21, 0x00])
      [(1, 0xAAAA00FF), (2, 0xFF00)] 0x0 3 = true := by decide
theorem test_not_byte_zero_result :
    leaves (machine v3 [(2, 0x123456FF)] 0x300 [0x3d#8, 0x20])
      [(2, 0x12345600)] 0x900 2 = true := by decide
theorem test_neg_most_negative_byte :
    leaves (machine v3 [(2, 0x80)] 0x0 [0x3d#8, 0x21])
      [(2, 0x80)] 0x600 2 = true := by decide
theorem test_neg_one_keeps_carry :
    leaves (machine v3 [(2, 0x1)] 0x100 [0xb9#8, 0x21, 0x01])
      [(1, 0xFFFFFFFF), (2, 0x1)] 0x500 3 = true := by decide
theorem test_movf_sets_flags :
    leaves (machine .v0 [(1, 0xFFFFFFFF), (2, 0x12348000)] 0x300 [0x79#8, 0x21, 0x02])
      [(1, 0xFFFF8000), (2, 0x12348000)] 0x500 3 = true := by decide
theorem test_mov_register_keeps_flags :
    leaves (machine v3 [(1, 0xFFFFFFFF), (2, 0x12348000)] 0x300 [0x79#8, 0x21, 0x02])
      [(1, 0xFFFF8000), (2, 0x12348000)] 0x300 3 = true := by decide
theorem test_hswap_byte :
    leaves (machine v3 [(1, 0xFFFFFF00), (2, 0xA5)] 0x0 [0x39#8, 0x21, 0x03])
      [(1, 0xFFFFFF5A), (2, 0xA5)] 0x0 3 = true := by decide
theorem test_hswap_half :
    leaves (machine v3 [(2, 0x12345678)] 0x0 [0x7d#8, 0x23])
      [(2, 0x12347856)] 0x0 2 = true := by decide
theorem test_mov_sign_extends_I8 :
    leaves (machine v3 [(3, 0x0)] 0x0 [0xf0#8, 0x37, 0x80])
      [(3, 0xFFFFFF80)] 0x0 3 = true := by decide
theorem test_mov_sign_extends_I16 :
    leaves (machine v3 [(3, 0x0)] 0x0 [0xf1#8, 0x37, 0x00, 0x80])
      [(3, 0xFFFF8000)] 0x0 4 = true := by decide
theorem test_sethi_keeps_low_half :
    leaves (machine v3 [(3, 0xFFFF1234)] 0x0 [0xf1#8, 0x33, 0xad, 0xde])
      [(3, 0xDEAD1234)] 0x0 4 = true := by decide
theorem test_sethi_zero_extends_I8 :
    leaves (machine v3 [(3, 0xFFFF1234)] 0x0 [0xf0#8, 0x33, 0xff])
      [(3, 0xFF1234)] 0x0 3 = true := by decide
theorem test_clear_byte :
    leaves (machine v3 [(4, 0xDEADBEEF)] 0x0 [0x3d#8, 0x44])
      [(4, 0xDEADBE00)] 0x0 2 = true := by decide
theorem test_clear_keeps_flags :
    leaves (machine v3 [(4, 0xDEADBEEF)] 0x700 [0xbd#8, 0x44])
      [(4, 0x0)] 0x700 2 = true := by decide
theorem test_setf_word :
    leaves (machine v3 [(4, 0x80000000)] 0x300 [0xbd#8, 0x45])
      [(4, 0x80000000)] 0x500 2 = true := by decide
theorem test_setf_byte_zero :
    leaves (machine v3 [(4, 0xFFFFFF00)] 0x0 [0x3d#8, 0x45])
      [(4, 0xFFFFFF00)] 0x800 2 = true := by decide
theorem test_mulu_ignores_high_halves :
    leaves (machine v3 [(1, 0xABCDFFFF), (2, 0x1234FFFF)] 0xF00 [0xff#8, 0x21, 0x30])
      [(1, 0xABCDFFFF), (2, 0x1234FFFF), (3, 0xFFFE0001)] 0xF00 3 = true := by decide
theorem test_muls_signs :
    leaves (machine v3 [(1, 0x7FFF), (2, 0x8000)] 0x0 [0xff#8, 0x21, 0x31])
      [(1, 0x7FFF), (2, 0x8000), (3, 0xC0008000)] 0x0 3 = true := by decide
theorem test_muls_sign_extends_I8 :
    leaves (machine v3 [(2, 0x3)] 0x0 [0xc1#8, 0x21, 0xff])
      [(1, 0xFFFFFFFD), (2, 0x3)] 0x0 3 = true := by decide
theorem test_sext_masks_index :
    leaves (machine v3 [(2, 0x18000)] 0x0 [0xc2#8, 0x21, 0x2f])
      [(1, 0xFFFF8000), (2, 0x18000)] 0x400 3 = true := by decide
theorem test_sext_bit_zero :
    leaves (machine v3 [(2, 0x1)] 0x0 [0xc2#8, 0x21, 0x00])
      [(1, 0xFFFFFFFF), (2, 0x1)] 0x400 3 = true := by decide
theorem test_extr_past_bit_31 :
    leaves (machine v3 [(2, 0xF0000000)] 0x0 [0xe7#8, 0x21, 0xfc, 0x00])
      [(1, 0xF), (2, 0xF0000000)] 0x0 4 = true := by decide
theorem test_extr_register_descriptor :
    leaves (machine v3 [(1, 0xFFFFFC24), (2, 0x30)] 0x0 [0xff#8, 0x21, 0x37])
      [(1, 0xFFFFFC24), (2, 0x30), (3, 0x3)] 0x0 3 = true := by decide
theorem test_extrs_sign_index_wraps :
    leaves (machine v3 [(2, 0xF0000008)] 0x0 [0xe3#8, 0x21, 0xfc, 0x00])
      [(1, 0xFFFFFF0F), (2, 0xF0000008)] 0x400 4 = true := by decide
theorem test_extrs_full_width :
    leaves (machine v3 [(2, 0x89ABCDEF)] 0x0 [0xe3#8, 0x21, 0xe0, 0x03])
      [(1, 0x89ABCDEF), (2, 0x89ABCDEF)] 0x400 4 = true := by decide
theorem test_ins_keeps_outside :
    leaves (machine v3 [(1, 0xFFFFFFFF), (2, 0x1AB)] 0xF00 [0xeb#8, 0x21, 0xe4, 0x00])
      [(1, 0xFFFFFABF), (2, 0x1AB)] 0xF00 4 = true := by decide
theorem test_ins_out_of_bounds :
    leaves (machine v3 [(1, 0x12345678), (2, 0xFF)] 0x0 [0xeb#8, 0x21, 0xf9, 0x00])
      [(1, 0x12345678), (2, 0xFF)] 0x0 4 = true := by decide
theorem test_and_v0_keeps_flags :
    leaves (machine .v0 [(1, 0xF0F0F0F), (2, 0xF0F0F0F0), (3, 0x5)] 0x700 [0xff#8, 0x21, 0x34])
      [(1, 0xF0F0F0F), (2, 0xF0F0F0F0), (3, 0x0)] 0x700 3 = true := by decide
theorem test_and_clears_c_and_o :
    leaves (machine v3 [(1, 0x80000000), (2, 0xFFFFFFFF)] 0x300 [0xfd#8, 0x21, 0x04])
      [(1, 0x80000000), (2, 0x80000000)] 0x400 3 = true := by decide
theorem test_or_zero_extends_I16 :
    leaves (machine v3 [(2, 0x80000000)] 0x300 [0xe5#8, 0x21, 0x00, 0x80])
      [(1, 0x80008000), (2, 0x80000000)] 0x400 4 = true := by decide
theorem test_or_v0_no_flags :
    leaves (machine .v0 [(1, 0xFFFF), (2, 0xFFFF0000)] 0x0 [0xff#8, 0x21, 0x35])
      [(1, 0xFFFF), (2, 0xFFFF0000), (3, 0xFFFFFFFF)] 0x0 3 = true := by decide
theorem test_xor_itself :
    leaves (machine v3 [(2, 0xDEADBEEF)] 0x100 [0xfd#8, 0x22, 0x06])
      [(2, 0x0)] 0x800 3 = true := by decide
theorem test_xor_zero_extends_I8 :
    leaves (machine v3 [(2, 0xFFFFFFFF)] 0x0 [0xc6#8, 0x21, 0xff])
      [(1, 0xFFFFFF00), (2, 0xFFFFFFFF)] 0x400 3 = true := by decide
theorem test_xbit_v0_keeps_others :
    leaves (machine .v0 [(1, 0xFFFFFFFF), (2, 0xFFFFFFDF)] 0x400 [0xc8#8, 0x21, 0x05])
      [(1, 0xFFFFFFFE), (2, 0xFFFFFFDF)] 0x400 3 = true := by decide
theorem test_xbit_reads_flags_then_writes_them :
    leaves (machine v3 [(1, 0xFFFFFFFF), (2, 0xB)] 0x800 [0xfe#8, 0x21, 0x0c])
      [(1, 0x1), (2, 0xB)] 0x0 3 = true := by decide
theorem test_bset_masks_index :
    leaves (machine v3 [(2, 0x0)] 0x0 [0xf0#8, 0x29, 0x25])
      [(2, 0x20)] 0x0 3 = true := by decide
theorem test_bset_flags :
    leaves (machine v3 [] 0x100 [0xf4#8, 0x31, 0x0b])
      [] 0x900 3 = true := by decide
theorem test_bclr_register :
    leaves (machine v3 [(1, 0x0), (2, 0xFFFFFFFF)] 0x0 [0xfd#8, 0x21, 0x0a])
      [(1, 0x0), (2, 0xFFFFFFFE)] 0x0 3 = true := by decide
theorem test_bclr_flags_masks_index :
    leaves (machine v3 [(2, 0x28)] 0xF00 [0xf9#8, 0x2a])
      [(2, 0x28)] 0xE00 2 = true := by decide
theorem test_btgl_own_index :
    leaves (machine v3 [(2, 0x3)] 0x0 [0xfd#8, 0x22, 0x0b])
      [(2, 0xB)] 0x0 3 = true := by decide
theorem test_btgl_flags :
    leaves (machine v3 [] 0x0 [0xf4#8, 0x33, 0x2a])
      [] 0x400 3 = true := by decide
theorem test_div_by_zero :
    leaves (machine v3 [(1, 0x0), (2, 0x12345678)] 0x0 [0xff#8, 0x21, 0x3c])
      [(1, 0x0), (2, 0x12345678), (3, 0xFFFFFFFF)] 0x0 3 = true := by decide
theorem test_div_unsigned :
    leaves (machine v3 [(1, 0xFFFFFFFF), (2, 0x80000000), (3, 0x9)] 0x0 [0xff#8, 0x21, 0x3c])
      [(1, 0xFFFFFFFF), (2, 0x80000000), (3, 0x0)] 0x0 3 = true := by decide
theorem test_mod_by_zero :
    leaves (machine v3 [(1, 0x0), (2, 0x12345678)] 0x0 [0xff#8, 0x21, 0x3d])
      [(1, 0x0), (2, 0x12345678), (3, 0x12345678)] 0x0 3 = true := by decide
theorem test_mod_I16 :
    leaves (machine v3 [(2, 0x186A7)] 0x0 [0xed#8, 0x21, 0xe8, 0x03])
      [(1, 0x7), (2, 0x186A7)] 0x0 4 = true := by decide
theorem test_setp_masks_index :
    leaves (machine v3 [(1, 0x2B), (2, 0xFFFFFFFF)] 0x0 [0xfa#8, 0x21, 0x08])
      [(1, 0x2B), (2, 0xFFFFFFFF)] 0x800 3 = true := by decide
theorem test_setp_clears :
    leaves (machine v3 [(2, 0x2)] 0xF00 [0xf2#8, 0x28, 0x08])
      [(2, 0x2)] 0xE00 3 = true := by decide

/-! What stops: the end of the image, and the conservative parameter values. -/

theorem test_end_of_image : step State.reset = .fault .endOfRun := rfl

theorem test_ins_refused_out_of_bounds :
    stepRefused { machine v3 [] 0 [0xeb#8, 0x21, 0xf9, 0x00] with
      config := { Config.default with insOob := .refuse } } .insOutOfBounds = true := by decide

theorem test_flags_bit_outside_mask_refused :
    stepRefused { machine v3 [] 0 [0xf2#8, 0x28, 0x07] with
      config := { Config.default with flagsOutside := .refuse } } .flagsBitOutsideMask = true := by decide

/-! States and operands that meet the hypotheses of each obligation that has some, with each clause at a boundary
value; the witness of the obligation `X` is `witness_X`. -/

/-- A v3+ machine and a v0 machine with something in every register the witnesses use. -/
def wide (bytes : List Byte) : State := machine v3 [(1, 0x27), (2, 0x80000001), (3, 0xFFFFFFFF)] 0xF00 bytes
def narrow (bytes : List Byte) : State := machine .v0 [(1, 0x27), (2, 0x80000001), (3, 0xFFFFFFFF)] 0xF00 bytes

/-- The same machines under the conservative parameter values. -/
def careful (s : State) : State :=
  { s with config := { s.config with flagsOutside := .refuse, insOob := .refuse } }

theorem witness_DecodeOfEncodeIsTheInstruction :
    (Instr.setp (.r2i8 15 0xff)).wellFormed .v0 = true ∧ (Instr.movf .b8 (.r2r2 0)).wellFormed .v0 = true ∧
    (Instr.mod (.r3r2r1 15 15 15)).wellFormed (.v3plus 9) = true := by decide

theorem witness_EncodeOfDecodeIsTheBytes :
    decode .v0 [0x79#8, 0x21, 0x02] = .ok (.movf .b16 (.r1r2 1 2)) ∧
    decode v3 [0xf1#8, 0x37, 0x00, 0x80, 0x55] = .ok (.movImm (.r2i16 3 0x8000)) := ⟨rfl, rfl⟩

/-- No opcode is listed twice, and none lists a subopcode twice (R63). -/
theorem test_opcode_map_has_no_repeats :
    (opcodeRows.map OpcodeRow.number).Nodup ∧ ∀ row ∈ opcodeRows, row.listed.Nodup := by decide

/-- A row of the opcode map, by its number. -/
def rowOf (number : Nat) : Option OpcodeRow := opcodeRows.find? (fun row => row.number == number)

/-- Keys that are no opcode: the sized 0x00 and 0x32, the unsized 0xd0 and 0xf8. Then each test of R80 in turn, by the
bytes of spec/95_test_vectors.md: cut short, a must-be-zero bit set, an unlisted subopcode, absent on v0, accepted. -/
theorem witness_UnlistedEncodingsAreRefused :
    ((0x8f#8).toNat / 64 ≠ 3 ∧ (0x8f#8).toNat / 16 % 4 = 0) ∧
    (∀ b0 ∈ [0x80#8, 0xb2, 0xd0, 0xf8], opcodeKey b0 ∉ opcodeRows.map OpcodeRow.number) ∧
    (∀ b0 ∈ [0xb0#8, 0xb8, 0xf4, 0xbd, 0x97], (rowOf (opcodeKey b0)).isSome = true) ∧
    (rowOf 0x30).any (fun row => row.length == 3) = true ∧
    (rowOf 0x38).any (fun row => 0x14#8 &&& row.zero2 != 0) = true ∧
    (rowOf 0xf4).any (fun row => 0x71#8 &&& row.zero1 != 0) = true ∧
    (rowOf 0x38).any (fun row => !row.listed.contains (row.place.read 0xb8 0x21 0x07)) = true ∧
    (rowOf 0xf4).any (fun row => !row.listed.contains (row.place.read 0xf4 0x30 0x08)) = true ∧
    (rowOf 0x10).any (fun row => !row.listed.contains (row.place.read 0x97 0x21 0x01)) = true ∧
    (rowOf 0x3d).any (fun row => row.v3plusOnly.contains (row.place.read 0xbd 0x45 0)) = true := by decide

theorem witness_UnusedBitsAreRefused :
    ((0xbb#8).toNat ∈ [0x38, 0x78, 0xb8, 0x39, 0x79, 0xb9, 0x3b, 0x7b, 0xbb, 0xfa, 0xfd, 0xfe] ∧
      (0x10#8).toNat / 16 ≠ 0) ∧
    ((0xf4#8).toNat = 0xf4 ∧ (0x71#8).toNat / 64 ≠ 0) := by decide

theorem witness_TruncatedInstructionIsRefused :
    decode v3 [0xf1#8, 0x37, 0x00, 0x80] = .ok (.movImm (.r2i16 3 0x8000)) ∧
    0 < (Instr.movImm (.r2i16 3 0x8000)).len ∧ 3 < (Instr.movImm (.r2i16 3 0x8000)).len := ⟨rfl, by decide, by decide⟩

theorem witness_VersionDecidesDecoding :
    decode (.v3plus 7) [0xbd#8, 0x22] = .ok (.movReg .b32 (.r2r2 2)) ∧
    decode (.v3plus 7) [0xbd#8, 0x45] = .ok (.setf .b32 4) ∧ (Instr.setf .b32 4).presence = .v3plusOnly ∧
    decode (.v3plus 7) [0xbd#8, 0x44] = .ok (.clear .b32 4) ∧ (Instr.clear .b32 4).presence = .all :=
  ⟨rfl, rfl, rfl, rfl, rfl⟩

theorem witness_StepRunsTheDecodedInstruction :
    (wide [0xbd#8, 0x44]).pc ≠ (wide [0xbd#8, 0x44]).code.size ∧
    decode (wide [0xbd#8, 0x44]).config.falconVersion (wide [0xbd#8, 0x44]).fetchBytes = .ok (.clear .b32 4) ∧
    decode (wide [0xbd#8]).config.falconVersion (wide [0xbd#8]).fetchBytes = .error .runsPastCodeImage :=
  ⟨by decide, rfl, rfl⟩

theorem witness_StepRunsTheEncodedInstruction :
    (Instr.clear .b32 4).wellFormed (wide [0xbd#8, 0x44]).config.falconVersion = true ∧
    (wide [0xbd#8, 0x44]).HoldsAtPc (encode (.clear .b32 4)) :=
  ⟨rfl, by unfold State.HoldsAtPc; decide⟩

theorem witness_EveryInstructionOfTheVersionCompletes :
    (wide []).config.flagsOutside = .plainStorage ∧ (wide []).config.insOob = .nop ∧
    (Instr.ins (.r1r2i16 1 2 0x00f9)).wellFormed (wide []).config.falconVersion = true := ⟨rfl, rfl, rfl⟩

theorem witness_AbsentInstructionIsRefused :
    (Instr.div (.r1r2i8 1 2 0)).wellFormed (narrow []).config.falconVersion = false ∧
    (Instr.movf .b8 (.r2r2 1)).wellFormed (wide []).config.falconVersion = false := ⟨rfl, rfl⟩

theorem witness_StepKeepsTheInvariant :
    (wide [0xbd#8, 0x44]).Inv ∧ ∃ t, step (wide [0xbd#8, 0x44]) = .next t :=
  ⟨⟨by decide, by decide⟩, _, rfl⟩

theorem witness_EveryRunTerminates :
    (wide [0xbd#8, 0x44, 0x3d, 0x20]).pc ≤ (wide [0xbd#8, 0x44, 0x3d, 0x20]).code.size ∧
    ∃ t, Sys2Proof.core.run 2 (wide [0xbd#8, 0x44, 0x3d, 0x20]) = .next t := ⟨by decide, _, rfl⟩

theorem witness_RunKeepsImageAndParameters :
    ∃ t, Sys2Proof.core.run 2 (narrow [0xbd#8, 0x44, 0x3d, 0x20]) = .next t := ⟨_, rfl⟩

theorem witness_HighSourceBitsHaveNoEffect :
    opSize (.adc .b8 (.r2r2r1 1 2)) = some .b8 ∧
    AgreeBelow .b8 (machine v3 [(1, 0x27), (2, 0x1)] 0x100 []) (machine v3 [(1, 0xFF27), (2, 0x80000001)] 0x100 []) ∧
    ∃ t, exec (.adc .b8 (.r2r2r1 1 2)) (machine v3 [(1, 0x27), (2, 0x1)] 0x100 []) = .next t :=
  ⟨rfl, ⟨by decide, rfl, rfl⟩, _, rfl⟩

theorem witness_SizedInstructionsKeepHighBits :
    opSize (.not .b16 (.r2r2 3)) = some .b16 ∧ ∃ t, exec (.not .b16 (.r2r2 3)) (wide []) = .next t := ⟨rfl, _, rfl⟩

theorem witness_OnlyTabulatedFlagsAreWritten :
    (∃ t, exec (.shl .b32 (.r2r2r1 2 1)) (narrow []) = .next t) ∧ 9 ∉ flagsWritten (narrow []) (.shl .b32 (.r2r2r1 2 1)) :=
  ⟨⟨_, rfl⟩, by decide⟩

theorem witness_CmpSetsTheFlagsOfASubtraction :
    (wide []).isV0 = false ∧ (narrow []).isV0 = true ∧ CmpForm.r2r1 2 1 = .r2r1 2 1 := by decide

theorem witness_RegisterMovesByVersion : (narrow []).isV0 = true ∧ (wide []).isV0 = false := by decide

theorem witness_SetfTestsAValue :
    (machine (.v3plus 2) [(4, 0x80)] 0 []).isV0 = false ∧ (narrow []).isV0 = true := by decide

theorem witness_ExtrExtractsUnsigned :
    (machine (.v3plus 1) [(2, 0xF0000008)] 0 []).isV0 = false ∧ (narrow []).isV0 = true := by decide

theorem witness_ExtrsExtractsSigned :
    (machine (.v3plus 1) [(2, 0xF0000008)] 0 []).isV0 = false ∧ (narrow []).isV0 = true := by decide

/-- In bounds at `low + size = 32`; out of bounds at 33, under either value of `INS_OOB`. -/
theorem witness_InsInsertsABitfield :
    (wide []).isV0 = false ∧ (0x00f8#16).toNat % 32 + (0x00f8#16).toNat / 32 % 32 + 1 = 32 ∧
    (0x00f9#16).toNat % 32 + (0x00f9#16).toNat / 32 % 32 + 1 = 33 ∧
    (wide []).config.insOob = .nop ∧ (careful (wide [])).isV0 = false ∧ (careful (wide [])).config.insOob ≠ .nop ∧
    (narrow []).isV0 = true := by decide

theorem witness_XbitExtractsABit :
    (XbitForm.r2flagsi8 2 0xff).readsFlags = true ∧ FlagsBitFree (wide []) 31 ∧ (wide []).isV0 = false ∧
    FlagsBitFree (careful (narrow [])) 8 ∧ FlagsBitFree (careful (narrow [])) 11 ∧ (narrow []).isV0 = true :=
  ⟨rfl, .inl rfl, rfl, .inr rfl, .inr rfl, rfl⟩

theorem witness_BsetSetsABit :
    (BitForm.r2i8 2 0xff).dst = some 2 ∧ (BitForm.r2r1 0 0).dst = some 0 ∧
    (BitForm.flagsi8 0x09).dst = none ∧
    FlagsBitFree (careful (wide [])) (((BitForm.flagsi8 0x09).src (wide [])).toNat % 32) ∧
    (BitForm.flagsr2 1).dst = none ∧ FlagsBitFree (wide []) 7 := ⟨rfl, rfl, rfl, .inr rfl, rfl, .inl rfl⟩

theorem witness_BclrClearsABit :
    (BitForm.r2i8 2 0xff).dst = some 2 ∧ (BitForm.r2r1 1 1).dst = some 1 ∧
    (BitForm.flagsi8 0x0a).dst = none ∧
    FlagsBitFree (careful (wide [])) (((BitForm.flagsi8 0x0a).src (wide [])).toNat % 32) ∧
    (BitForm.flagsr2 1).dst = none ∧ FlagsBitFree (wide []) 7 := ⟨rfl, rfl, rfl, .inr rfl, rfl, .inl rfl⟩

theorem witness_BtglInvertsABit :
    (BitForm.r2i8 2 0xff).dst = some 2 ∧ (BitForm.r2r1 2 2).dst = some 2 ∧
    (BitForm.flagsi8 0x0b).dst = none ∧
    FlagsBitFree (careful (wide [])) (((BitForm.flagsi8 0x0b).src (wide [])).toNat % 32) ∧
    (BitForm.flagsr2 1).dst = none ∧ FlagsBitFree (wide []) 7 := ⟨rfl, rfl, rfl, .inr rfl, rfl, .inl rfl⟩

/-- A zero divisor and a divisor that is not zero. -/
theorem witness_DivAndModAreUnsigned :
    (wide []).isV0 = false ∧ (narrow []).isV0 = true ∧ (FieldForm.toAlu (.r3r2r1 3 2 0)).src2 .zero (wide []) = 0 ∧
    (FieldForm.toAlu (.r3r2r1 3 2 1)).src2 .zero (wide []) ≠ 0 := by decide

theorem witness_SetpSetsOneFlagsBit :
    FlagsBitFree (wide []) 31 ∧ FlagsBitFree (careful (wide [])) (((SetpForm.r2i8 2 0x2b).src2 (wide [])).toNat % 32) :=
  ⟨.inl rfl, .inr rfl⟩

theorem witness_ConservativeReadingRefusesUndefinedFlags :
    (careful (wide [])).config.flagsOutside = .refuse ∧ (XbitForm.r1flagsr2 1 1).readsFlags = true ∧
    (careful (wide [])).config.flagsDefinedMask.getLsbD (((XbitForm.r1flagsr2 1 1).src2 (wide [])).toNat % 32) = false ∧
    (BitForm.flagsi8 0x0c).dst = none ∧
    (careful (wide [])).config.flagsDefinedMask.getLsbD (((BitForm.flagsi8 0x0c).src (wide [])).toNat % 32) = false ∧
    (careful (wide [])).config.flagsDefinedMask.getLsbD (((SetpForm.r2i8 2 0).src2 (wide [])).toNat % 32) = false := by
  decide

theorem witness_CarryAndOverflowFlagsMeanOutOfRange : (machine v3 [(1, 0x80)] 0x100 []).isV0 = false := by decide

end Sys2Proof.Tests
end

section
/-! PROOF. What a sized instruction that completes can have done to the state, and with it that the register bits
at and above the operation size are kept (R22). -/

namespace Sys2Proof.Machine

/-- The next states that a sized instruction of length `len` can answer from `s`: at most one sized write of a
register, a write of `$flags`, and the advance of `pc`. -/
inductive SizedCompletion (sz : Size) (len : Nat) (s : State) : State → Prop where
  /-- No register is written: the comparisons and `setf`. -/
  | flagsOnly (fl : Word) : SizedCompletion sz len s ((s.setFlags fl).advance len)
  /-- One register is written at the operation size (R12); a `$flags` value equal to the old one writes no flag. -/
  | sizedWrite (d : Reg) (v : BitVec (width sz)) (fl : Word) :
      SizedCompletion sz len s (((s.writeSized sz d v).setFlags fl).advance len)

theorem finishAddSub_sizedCompletion {sz : Size} {f : AluForm} {c o : Bool} {res : BitVec (width sz)} {s t : State}
    (h : finishAddSub sz f c o res s = .next t) : SizedCompletion sz f.len s t := by
  cases h
  exact .sizedWrite f.dst res _

theorem finishShift_sizedCompletion {sz : Size} {f : ShiftForm} {c : Bool} {res : BitVec (width sz)} {s t : State}
    (h : finishShift sz f c res s = .next t) : SizedCompletion sz f.toAlu.len s t := by
  cases h
  exact .sizedWrite f.toAlu.dst res _

theorem finishUnary_sizedCompletion {sz : Size} {f : UnaryForm} {o : Bool} {res : BitVec (width sz)} {s t : State}
    (h : finishUnary sz f o res s = .next t) : SizedCompletion sz f.len s t := by
  cases h
  exact .sizedWrite f.dst res _

/-- The case split over the instructions: an arithmetic, shift or unary one ends in its family's shared writer, the
others write flags only or one register without a flag, and an unsized one has no operation size. -/
theorem exec_sizedCompletion {i : Instr} {sz : Size} {s t : State} (hsz : opSize i = some sz)
    (h : exec i s = .next t) : SizedCompletion sz i.len s t := by
  cases i with
  | add _ _ | adc _ _ | sub _ _ | sbb _ _ =>
    cases hsz
    exact finishAddSub_sizedCompletion h
  | shl _ _ | shr _ _ | sar _ _ | shlc _ _ | shrc _ _ =>
    cases hsz
    exact finishShift_sizedCompletion h
  | not _ _ | neg _ _ | hswap _ _ =>
    cases hsz
    exact finishUnary_sizedCompletion h
  | movf _ _ =>
    cases hsz
    obtain ⟨-, hnext⟩ := onlyV0_next s t _ h
    exact finishUnary_sizedCompletion hnext
  | movReg _ f =>
    cases hsz
    obtain ⟨-, hnext⟩ := onlyV3plus_next s t _ h
    cases hnext
    exact .sizedWrite f.dst _ s.flags
  | clear _ r2 =>
    cases hsz
    cases h
    exact .sizedWrite r2 0 s.flags
  | cmpu _ _ | cmps _ _ =>
    cases h
    exact .flagsOnly _
  | cmp _ _ | setf _ _ =>
    obtain ⟨-, hnext⟩ := onlyV3plus_next s t _ h
    cases hnext
    exact .flagsOnly _
  | movImm _ | sethi _ | mulu _ | muls _ | sext _ | extr _ | extrs _ | ins _ | and _ | or _ | xor _ | xbit _
  | bset _ | bclr _ | btgl _ | div _ | mod _ | setp _ => cases hsz

/-- A sized write of any register keeps the high bits of every register. -/
theorem KeepsHigh.writeSized_any (s : State) (sz : Size) (d r : Reg) (v : BitVec (width sz)) :
    KeepsHigh sz r s (s.writeSized sz d v) := by
  by_cases hdr : d = r
  · subst hdr
    exact KeepsHigh.writeSized s sz d v
  · intro j _
    rw [State.reg_writeSized_other s sz d r v hdr]

theorem SizedCompletion.keepsHigh {sz : Size} {len : Nat} {s t : State} (h : SizedCompletion sz len s t) (r : Reg) :
    KeepsHigh sz r s t := by
  cases h with
  | flagsOnly fl => exact fun _ _ => rfl
  | sizedWrite d v fl => exact ((KeepsHigh.writeSized_any s sz d r v).setFlags fl).advance len

/-- Settles O21: a sized instruction makes at most one register write, at its size, and such a write keeps the high
bits. -/
theorem sizedInstructionsKeepHighBits : Obligations.SizedInstructionsKeepHighBits := by
  intro i sz s t hsz h
  exact (exec_sizedCompletion hsz h).keepsHigh

end Sys2Proof.Machine
end

section
/-! PROOF. What `mov` (immediate) and `sethi` answer and how the frames of two steps compose, and with it that the
pair loads any constant (R82). -/

namespace Sys2Proof.Machine

/-- Two steps that may change the same register and flag bits compose: the lengths add up. -/
theorem OnlyChanges.trans {s t u : State} {dst : Option Reg} {bits : List Nat} {m n : Nat}
    (hst : OnlyChanges s t dst bits m) (htu : OnlyChanges t u dst bits n) : OnlyChanges s u dst bits (m + n) where
  regs r hr := (htu.regs r hr).trans (hst.regs r hr)
  flags j hj := (htu.flags j hj).trans (hst.flags j hj)
  bytes a := (htu.bytes a).trans (hst.bytes a)
  size := htu.size.trans hst.size
  config := htu.config.trans hst.config
  pc := by rw [htu.pc, hst.pc, Nat.add_assoc]

/-- The low bits of an extended immediate are the immediate, whatever the extension puts above them (R64). -/
theorem setWidth_extend {m : Nat} (e : Extension) (imm : BitVec m) (hm : m ≤ 32) : (extend e imm).setWidth m = imm := by
  cases e with
  | zero | truncated => simp [extend, hm]
  | sign =>
    ext j hj
    have hj32 : j < 32 := by omega
    simp [extend, BitVec.getElem_signExtend, hj, hj32]

/-- The word that `sethi` writes, in halves: the source's low half above, the old low half below (R142). -/
theorem sethiWord_eq_append (old src : Word) :
    (old &&& 0x0000FFFF#32) ||| src <<< 16 = (src.setWidth 16 ++ old.setWidth 16 : Word) := by
  ext j hj
  have hmask : (0x0000FFFF#32).getLsbD j = decide (j < 16) :=
    (by decide : ∀ i < 32, (0x0000FFFF#32).getLsbD i = decide (i < 16)) j hj
  simp only [← BitVec.getLsbD_eq_getElem, BitVec.getLsbD_append, BitVec.getLsbD_or, BitVec.getLsbD_and, hmask]
  by_cases hlow : j < 16
  · simp [hlow]
  · have hhigh : j - 16 < 16 := by omega
    simp [hlow, hj, hhigh, BitVec.getLsbD_eq_getElem (show j - 16 < 32 by omega)]

/-- The two halves of a word join to it. -/
theorem joinWord (k : Word) : (k.extractLsb' 16 16 ++ k.extractLsb' 0 16 : Word) = k := by
  rw [BitVec.extractLsb'_append_extractLsb'_eq_extractLsb' (by rfl)]
  simp

/-- `mov` (immediate) completes in every state (R141). -/
theorem exec_movImm (f : ImmForm) (s : State) :
    exec (.movImm f) s = .next ((s.setReg f.dst (f.src .sign)).advance f.len) := rfl

/-- `sethi` completes in every state, with the word it writes in halves (R142). -/
theorem exec_sethi (f : ImmForm) (s : State) :
    exec (.sethi f) s =
      .next ((s.setReg f.dst ((f.src .zero).setWidth 16 ++ (s.reg f.dst).setWidth 16 : Word)).advance f.len) := by
  rw [← sethiWord_eq_append]
  rfl

/-- Settles O43: `sethi` keeps the low half that `mov` wrote and replaces the high half, and both steps change only
the destination and `pc`. -/
theorem movThenSethiLoadsAnyConstant : Obligations.MovThenSethiLoadsAnyConstant := by
  intro s d k
  refine ⟨_, _, exec_movImm _ s, exec_sethi _ _, ?_, ?_⟩
  · simp only [ImmForm.dst, ImmForm.src, State.advance_reg, State.reg_setReg_same, joinWord,
      setWidth_extend _ _ (show 16 ≤ 32 by decide)]
  · exact (OnlyChanges.setReg s d _ 4).trans (OnlyChanges.setReg _ d _ 4)

end Sys2Proof.Machine
end

section
/-! PROOF. The flags that a comparison writes, what they say of its operands, and what a comparison leaves unchanged
(R100 to R103). -/

namespace Sys2Proof.Machine

/-! The borrow, overflow and sign of a difference, in the terms of BitVec. -/

@[simp] theorem subBorrow_eq {w : Nat} (x y r : BitVec w) : subBorrow x y r = !carryFn x.msb (!y.msb) r.msb := by
  simp [subBorrow]

@[simp] theorem subOverflow_eq {w : Nat} (x y r : BitVec w) : subOverflow x y r = overflowFn x.msb (!y.msb) r.msb := by
  simp [subOverflow]

theorem overflowFn_true_iff (x y r : Bool) : overflowFn x (!y) r = true ↔ x = !y ∧ r = y := by
  revert x y r
  decide

/-- The source's overflow of a subtraction (R11) is the one of the BitVec library. -/
theorem overflowFn_sub_eq_ssubOverflow {w : Nat} (x y : BitVec w) :
    overflowFn x.msb (!y.msb) (x - y).msb = x.ssubOverflow y := by
  have truthTable : ∀ p q r : Bool, overflowFn p (!q) r = (!p && q && r || p && !q && !r) := by decide
  rw [BitVec.ssubOverflow_eq, truthTable]

/-- Signed less-than is overflow xor sign (R102). Without overflow the difference is exact, so its sign decides. With
overflow the operands differ in sign and the difference has the sign of the second, so the first one's sign decides. -/
theorem overflow_xor_sign_iff_toInt_lt {w : Nat} (x y : BitVec w) :
    (overflowFn x.msb (!y.msb) (x - y).msb ^^ (x - y).msb) = true ↔ x.toInt < y.toInt := by
  by_cases hov : x.ssubOverflow y = true
  · rw [← overflowFn_sub_eq_ssubOverflow] at hov
    obtain ⟨hx, hdiff⟩ := (overflowFn_true_iff _ _ _).mp hov
    rw [hov, hdiff]
    cases hy : y.msb with
    | true =>
      have hxNonneg : ¬ x.toInt < 0 := by simpa [hy, BitVec.msb_eq_toInt] using hx
      have hyNeg : y.toInt < 0 := by simpa [BitVec.msb_eq_toInt] using hy
      simp only [Bool.xor_self, Bool.false_eq_true, false_iff]
      omega
    | false =>
      have hxNeg : x.toInt < 0 := by simpa [hy, BitVec.msb_eq_toInt] using hx
      have hyNonneg : ¬ y.toInt < 0 := by simpa [BitVec.msb_eq_toInt] using hy
      simp only [Bool.xor_false, true_iff]
      omega
  · have hexact : (x - y).toInt = x.toInt - y.toInt := BitVec.toInt_sub_of_not_ssubOverflow hov
    have hsign : (x - y).msb = true ↔ x.toInt < y.toInt := by
      rw [BitVec.msb_eq_toInt, hexact, decide_eq_true_iff, sub_neg]
    rw [overflowFn_sub_eq_ssubOverflow, Bool.eq_false_iff.mpr hov, Bool.false_xor, hsign]

/-! The frames of the flag writes. -/

/-- A write of `c` and `z` alone (R101, R102). -/
theorem OnlyChanges.setC_setZ (s : State) (c z : Bool) (len : Nat) :
    OnlyChanges s ((s.setFlags (setC c (setZ z s.flags))).advance len) none [8, 11] len := by
  refine (OnlyChanges.advance s len).setFlags _ fun j hj => ?_
  obtain ⟨h8, h11⟩ : j ≠ 8 ∧ j ≠ 11 := by simpa using hj
  simp [h8, h11]

/-- A write of all four result flags, beside whatever register write (R103, R110). -/
theorem OnlyChanges.setCOSZ {s u : State} {dst : Option Reg} {len w : Nat} (c o : Bool) (res : BitVec w)
    (hu : OnlyChanges s (u.advance len) dst [] len) :
    OnlyChanges s ((u.setFlags (setCOSZ c o res s.flags)).advance len) dst [8, 9, 10, 11] len := by
  refine hu.setFlags _ fun j hj => ?_
  obtain ⟨h8, h9, h10, h11⟩ : j ≠ 8 ∧ j ≠ 9 ∧ j ≠ 10 ∧ j ≠ 11 := by simpa using hj
  simp [h8, h9, h10, h11]

/-- Where all four flags were written from a result, `s` and `z` are the result's. -/
theorem FlagsSZ.of_setCOSZ {w : Nat} {t : State} {c o : Bool} {res : BitVec w} {fl : Word}
    (h : t.flags = setCOSZ c o res fl) : FlagsSZ t res := by
  simp [FlagsSZ, h]

/-! What the comparisons answer. -/

theorem exec_cmpu (sz : Size) (f : CmpForm) (s : State) :
    let a := lo sz (f.src1 s)
    let b := lo sz (f.src2 .zero s)
    exec (.cmpu sz f) s =
      .next ((s.setFlags (setC (subBorrow a b (a - b)) (setZ (a - b == 0) s.flags))).advance f.len) := rfl

theorem exec_cmps (sz : Size) (f : CmpForm) (s : State) :
    let a := lo sz (f.src1 s)
    let b := lo sz (f.src2 .sign s)
    exec (.cmps sz f) s =
      .next ((s.setFlags
        (setC (subOverflow a b (a - b) ^^ signOf (a - b)) (setZ (a - b == 0) s.flags))).advance f.len) := rfl

theorem exec_cmp_of_v0 (sz : Size) (f : CmpForm) (s : State) (h : s.isV0 = true) :
    exec (.cmp sz f) s = .refused .notPresentOnVersion :=
  onlyV3plus_of_v0 s _ h

theorem exec_cmp_of_v3plus (sz : Size) (f : CmpForm) (s : State) (h : s.isV0 = false) :
    let a := lo sz (f.src1 s)
    let b := lo sz (f.src2 .sign s)
    exec (.cmp sz f) s =
      .next ((s.setFlags
        (setCOSZ (subBorrow a b (a - b)) (subOverflow a b (a - b)) (a - b) s.flags)).advance f.len) :=
  onlyV3plus_of_v3plus s _ h

/-- `sub` completes in every state (R113). -/
theorem exec_sub (sz : Size) (f : AluForm) (s : State) :
    let a := lo sz (f.src1 s)
    let b := lo sz (f.src2 .zero s)
    exec (.sub sz f) s =
      .next (((s.writeSized sz f.dst (a - b)).setFlags
        (setCOSZ (subBorrow a b (a - b)) (subOverflow a b (a - b)) (a - b) s.flags)).advance f.len) := rfl

/-- Settles O25: `cmpu` writes the borrow to `c` and the zero test to `z`, and no other bit. -/
theorem cmpuComparesUnsigned : Obligations.CmpuComparesUnsigned := by
  intro sz f s a b
  refine ⟨_, exec_cmpu sz f s, OnlyChanges.setC_setZ s _ _ f.len, ?_, ?_⟩
  · simp [a, b]
  · simp [a, b]

/-- Settles O26: `cmps` writes overflow xor sign to `c`, which is the signed less-than, and the zero test to `z`. -/
theorem cmpsComparesSigned : Obligations.CmpsComparesSigned := by
  intro sz f s a b
  refine ⟨_, exec_cmps sz f s, OnlyChanges.setC_setZ s _ _ f.len, ?_, ?_, ?_⟩
  · simp [a, b]
  · simpa [a, b] using overflow_xor_sign_iff_toInt_lt a b
  · simp [a, b]

/-- Settles O27: on v3+ `cmp` writes the four flags of the difference, as `sub` of the same registers does. -/
theorem cmpSetsTheFlagsOfASubtraction : Obligations.CmpSetsTheFlagsOfASubtraction := by
  intro sz f s a b
  refine ⟨exec_cmp_of_v0 sz f s, fun hv => ?_⟩
  refine ⟨_, exec_cmp_of_v3plus sz f s hv, (OnlyChanges.advance s f.len).setCOSZ _ _ _, ?_, ?_,
    FlagsSZ.of_setCOSZ rfl, ?_⟩
  · simp [a, b]
  · simp [a, b]
  · rintro r1 r2 r3 rfl
    exact ⟨_, exec_sub sz (.r3r2r1 r3 r2 r1) s, rfl, rfl⟩

end Sys2Proof.Machine
end

section
/-! PROOF. What the shared end of `add`, `adc`, `sub` and `sbb` does to the state, the value of each result as
arithmetic on naturals, and with them the four instructions (R110 to R114). -/

namespace Sys2Proof.Machine

/-! The carry and overflow of a sum, in the terms of BitVec. -/

@[simp] theorem addCarry_eq {w : Nat} (x y r : BitVec w) : addCarry x y r = carryFn x.msb y.msb r.msb := by
  simp [addCarry]

@[simp] theorem addOverflow_eq {w : Nat} (x y r : BitVec w) :
    addOverflow x y r = overflowFn x.msb y.msb r.msb := by
  simp [addOverflow]

/-- A subtraction overflows where its operands differ in sign and the result has not the sign of the first (R11). -/
theorem overflowFn_not_eq_true_iff_ne (x y r : Bool) : overflowFn x (!y) r = true ↔ x ≠ y ∧ r ≠ x := by
  rw [overflowFn_true_iff, Bool.eq_not]
  refine and_congr_right fun hxy => ?_
  have hy : y = !x := Bool.eq_not.mpr hxy.symm
  rw [hy, Bool.eq_not]

/-! The results as naturals. -/

/-- The carry in is the old `c`, 0 or 1, at every operation size. -/
theorem toNat_carryIn (sz : Size) (s : State) : (carryIn sz s).toNat = (s.flags.getLsbD 8).toNat := by
  have hfits : (s.flags.getLsbD 8).toNat < 2 ^ width sz :=
    (Bool.toNat_lt _).trans_le (Nat.pow_le_pow_right Nat.two_pos (width_pos sz))
  simpa [carryIn, flagC, bitC] using Nat.mod_eq_of_lt hfits

theorem toNat_add_add {w : Nat} (x y c : BitVec w) :
    (x + y + c).toNat = (x.toNat + y.toNat + c.toNat) % 2 ^ w := by
  rw [BitVec.toNat_add, BitVec.toNat_add, Nat.mod_add_mod]

/-- One modulus added before the subtraction keeps it from truncating. -/
theorem toNat_sub_eq_modulus_add_sub {w : Nat} (x y : BitVec w) :
    (x - y).toNat = (2 ^ w + x.toNat - y.toNat) % 2 ^ w := by
  have hy := y.isLt
  rw [BitVec.toNat_sub]
  congr 1
  omega

/-- Two subtractions in a row need the modulus twice. -/
theorem toNat_sub_sub {w : Nat} (x y c : BitVec w) :
    (x - y - c).toNat = (2 * 2 ^ w + x.toNat - y.toNat - c.toNat) % 2 ^ w := by
  have hy := y.isLt
  have hc := c.isLt
  rw [BitVec.toNat_sub, BitVec.toNat_sub, Nat.add_mod_mod]
  congr 1
  omega

/-! The shared end of the four instructions (R110). -/

/-- `t` is `s` after a sized three-operand instruction of form `f` wrote `res`, the flags `c` and `o`, and the `s` and
`z` of what it wrote. -/
structure WritesResult (sz : Size) (f : AluForm) (c o : Bool) (res : BitVec (width sz)) (s t : State) : Prop where
  frame : OnlyChanges s t (some f.dst) [8, 9, 10, 11] f.len
  high : KeepsHigh sz f.dst s t
  value : lo sz (t.reg f.dst) = res
  carry : t.flags.getLsbD 8 = c
  overflow : t.flags.getLsbD 9 = o
  signZero : FlagsSZ t (lo sz (t.reg f.dst))

theorem finishAddSub_writesResult (sz : Size) (f : AluForm) (c o : Bool) (res : BitVec (width sz)) (s : State) :
    ∃ t, finishAddSub sz f c o res s = .next t ∧ WritesResult sz f c o res s t := by
  have hvalue : lo sz ((s.writeSized sz f.dst res).reg f.dst) = res := by simp
  refine ⟨_, State.done_eq _ _, ?_⟩
  exact {
    frame := (OnlyChanges.writeSized s sz f.dst res f.len).setCOSZ c o res
    high := ((KeepsHigh.writeSized s sz f.dst res).setFlags _).advance _
    value := hvalue
    carry := by simp
    overflow := by simp
    signZero := hvalue.symm ▸ FlagsSZ.of_setCOSZ rfl }

theorem exec_add_writesResult (sz : Size) (f : AluForm) (s : State) :
    let a := lo sz (f.src1 s)
    let b := lo sz (f.src2 .zero s)
    ∃ t, exec (.add sz f) s = .next t ∧
      WritesResult sz f (addCarry a b (a + b)) (addOverflow a b (a + b)) (a + b) s t :=
  finishAddSub_writesResult sz f _ _ _ s

theorem exec_adc_writesResult (sz : Size) (f : AluForm) (s : State) :
    let a := lo sz (f.src1 s)
    let b := lo sz (f.src2 .zero s)
    let r := a + b + carryIn sz s
    ∃ t, exec (.adc sz f) s = .next t ∧ WritesResult sz f (addCarry a b r) (addOverflow a b r) r s t :=
  finishAddSub_writesResult sz f _ _ _ s

theorem exec_sub_writesResult (sz : Size) (f : AluForm) (s : State) :
    let a := lo sz (f.src1 s)
    let b := lo sz (f.src2 .zero s)
    ∃ t, exec (.sub sz f) s = .next t ∧
      WritesResult sz f (subBorrow a b (a - b)) (subOverflow a b (a - b)) (a - b) s t :=
  finishAddSub_writesResult sz f _ _ _ s

theorem exec_sbb_writesResult (sz : Size) (f : AluForm) (s : State) :
    let a := lo sz (f.src1 s)
    let b := lo sz (f.src2 .zero s)
    let r := a - b - carryIn sz s
    ∃ t, exec (.sbb sz f) s = .next t ∧ WritesResult sz f (subBorrow a b r) (subOverflow a b r) r s t :=
  finishAddSub_writesResult sz f _ _ _ s

/-- Settles O28: `add` ends in the shared write, of the BitVec sum, which is the sum modulo `2^sz`. -/
theorem addComputesSumAndFlags : Obligations.AddComputesSumAndFlags := by
  intro sz f s a b
  obtain ⟨t, hexec, h⟩ := exec_add_writesResult sz f s
  refine ⟨t, hexec, h.frame, h.high, ?_, ?_, ?_, h.signZero⟩
  · rw [h.value, BitVec.toNat_add]
  · rw [h.carry, h.value, addCarry_eq]
  · rw [h.overflow, h.value, addOverflow_eq]

/-- Settles O29: `adc` ends in the shared write, of the sum with the old `c` added in. -/
theorem adcComputesSumWithCarryAndFlags : Obligations.AdcComputesSumWithCarryAndFlags := by
  intro sz f s a b cin
  obtain ⟨t, hexec, h⟩ := exec_adc_writesResult sz f s
  refine ⟨t, hexec, h.frame, h.high, ?_, ?_, ?_, h.signZero⟩
  · rw [h.value, toNat_add_add, toNat_carryIn]
  · rw [h.carry, h.value, addCarry_eq]
  · rw [h.overflow, h.value, addOverflow_eq]

/-- Settles O30: `sub` ends in the shared write, of the difference, with the borrow and the overflow of R11. -/
theorem subComputesDifferenceAndFlags : Obligations.SubComputesDifferenceAndFlags := by
  intro sz f s a b
  obtain ⟨t, hexec, h⟩ := exec_sub_writesResult sz f s
  refine ⟨t, hexec, h.frame, h.high, ?_, ?_, ?_, ?_, h.signZero⟩
  · rw [h.value, toNat_sub_eq_modulus_add_sub]
  · rw [h.carry, h.value, subBorrow_eq]
  · rw [h.overflow, h.value, subOverflow_eq]
  · rw [h.overflow, h.value, subOverflow_eq, overflowFn_not_eq_true_iff_ne]

/-- Settles O31: `sbb` ends in the shared write, of the difference with the old `c` taken off. -/
theorem sbbComputesDifferenceWithBorrowAndFlags : Obligations.SbbComputesDifferenceWithBorrowAndFlags := by
  intro sz f s a b bin
  obtain ⟨t, hexec, h⟩ := exec_sbb_writesResult sz f s
  refine ⟨t, hexec, h.frame, h.high, ?_, ?_, ?_, h.signZero⟩
  · rw [h.value, toNat_sub_sub, toNat_carryIn]
  · rw [h.carry, h.value, subBorrow_eq]
  · rw [h.overflow, h.value, subOverflow_eq]

end Sys2Proof.Machine
end

section
/-! PROOF. What the shared end of the five shifts does to the state, the bits that each kind of shift puts in, and with
them the shifts (R120 to R125). -/

namespace Sys2Proof.Machine

/-! The operands and the carry out, in the terms of the statements. -/

theorem shiftAmount_eq (sz : Size) (f : ShiftForm) (s : State) :
    shiftAmount sz f s = (f.toAlu.src2 .truncated s).toNat % width sz := shiftCount_eq sz _

/-- No shift can be asked for by `sz` or more (R120). -/
theorem shiftAmount_lt_width (sz : Size) (f : ShiftForm) (s : State) : shiftAmount sz f s < width sz := by
  rw [shiftAmount_eq]
  exact Nat.mod_lt _ (width_pos sz)

theorem lastOutLeft_eq {w : Nat} (a : BitVec w) (n : Nat) :
    lastOutLeft a n = (decide (n ≠ 0) && a.getLsbD (w - n)) := by
  cases n <;> simp [lastOutLeft]

theorem lastOutRight_eq {w : Nat} (a : BitVec w) (n : Nat) :
    lastOutRight a n = (decide (n ≠ 0) && a.getLsbD (n - 1)) := by
  cases n <;> simp [lastOutRight]

/-! The bits shifted in. -/

/-- Ones put over the `n` bits that a right shift by `n` vacated, where the sign is 1, make it the arithmetic shift of
the BitVec library (R123). -/
theorem ushiftRight_or_signFill {w n : Nat} (a : BitVec w) (hn : n < w) :
    (a >>> n ||| if signOf a && n != 0 then BitVec.allOnes w <<< (w - n) else 0#w) = a.sshiftRight n := by
  apply BitVec.eq_of_getLsbD_eq
  intro j hj
  have hsum : n + j < w ↔ j < w - n := by omega
  rw [BitVec.getLsbD_sshiftRight, BitVec.getLsbD_or, BitVec.getLsbD_ushiftRight, signOf_eq_msb]
  by_cases hkept : n + j < w
  · have hbelow : j < w - n := hsum.mp hkept
    split <;> simp [hj, hkept, hbelow]
  · have hn0 : n ≠ 0 := by omega
    have hgone : a.getLsbD (n + j) = false := BitVec.getLsbD_of_ge a _ (by omega)
    have habove : ¬ j < w - n := mt hsum.mpr hkept
    cases hsign : a.msb <;> simp [hj, hn0, hkept, hgone, habove]

theorem getLsbD_carryBit (sz : Size) (i : Nat) (s : State) (j : Nat) (hj : j < width sz) :
    (carryBit sz i s).getLsbD j = (decide (j = i) && s.flags.getLsbD 8) := by
  simp only [carryBit, flagC, bitC, BitVec.getLsbD_shiftLeft, BitVec.getLsbD_setWidth, BitVec.getLsbD_ofBool]
  by_cases hlt : j < i
  · have hne : j ≠ i := by omega
    simp [hlt, hne]
  · have hzero : j - i = 0 ↔ j = i := by omega
    have hin : j - i < width sz := by omega
    simp [hj, hlt, hin, hzero]

/-- What `shlc` puts in at the bottom: the old carry as the highest of the `n` bits, and nothing for a count of 0. -/
theorem getLsbD_carryBelow (sz : Size) (n : Nat) (s : State) (j : Nat) (hj : j < width sz) :
    (if n = 0 then 0#(width sz) else carryBit sz (n - 1) s).getLsbD j =
      (decide (j + 1 = n) && s.flags.getLsbD 8) := by
  by_cases hn : n = 0
  · simp [hn]
  · have hpos : j = n - 1 ↔ j + 1 = n := by omega
    rw [if_neg hn, getLsbD_carryBit sz _ s j hj, decide_eq_decide.mpr hpos]

/-- What `shrc` puts in at the top: the old carry as the lowest of the `n` bits, and nothing for a count of 0. -/
theorem getLsbD_carryAbove (sz : Size) (n : Nat) (s : State) (j : Nat) (hn : n < width sz) (hj : j < width sz) :
    (if n = 0 then 0#(width sz) else carryBit sz (width sz - n) s).getLsbD j =
      (decide (j + n = width sz) && s.flags.getLsbD 8) := by
  by_cases hn0 : n = 0
  · simp [hn0, hj.ne]
  · have hpos : j = width sz - n ↔ j + n = width sz := by omega
    rw [if_neg hn0, getLsbD_carryBit sz _ s j hj, decide_eq_decide.mpr hpos]

/-- The result of `shlc` (R124): from bit `n` up the source, where no carry is; below it the carry, where the shifted
source is 0. -/
theorem getLsbD_shiftLeft_or_carryBelow {sz : Size} (a : BitVec (width sz)) (n : Nat) (s : State) (j : Nat)
    (hj : j < width sz) :
    (a <<< n ||| if n = 0 then 0#(width sz) else carryBit sz (n - 1) s).getLsbD j =
      if n ≤ j then a.getLsbD (j - n) else decide (j + 1 = n) && s.flags.getLsbD 8 := by
  rw [BitVec.getLsbD_or, BitVec.getLsbD_shiftLeft, getLsbD_carryBelow sz n s j hj]
  by_cases hfrom : n ≤ j
  · have hnot : j + 1 ≠ n := by omega
    simp [hj, hfrom, hnot]
  · simp [hfrom]

/-- The result of `shrc` (R125): below bit `sz - n` the source, where no carry is; from it up the carry, where the
shifted source is 0. -/
theorem getLsbD_ushiftRight_or_carryAbove {sz : Size} (a : BitVec (width sz)) (n : Nat) (s : State) (j : Nat)
    (hn : n < width sz) (hj : j < width sz) :
    (a >>> n ||| if n = 0 then 0#(width sz) else carryBit sz (width sz - n) s).getLsbD j =
      if j + n < width sz then a.getLsbD (j + n) else decide (j + n = width sz) && s.flags.getLsbD 8 := by
  rw [BitVec.getLsbD_or, BitVec.getLsbD_ushiftRight, getLsbD_carryAbove sz n s j hn hj, Nat.add_comm n j]
  by_cases hkept : j + n < width sz
  · simp [hkept, hkept.ne]
  · have hgone : a.getLsbD (j + n) = false := BitVec.getLsbD_of_ge a _ (by omega)
    simp [hkept, hgone]

/-! The shared end of the five shifts (R120). -/

/-- A shift's flag write keeps every bit but those of its version, beside whatever register write. -/
theorem OnlyChanges.setShift {s u : State} {dst : Option Reg} {len w : Nat} (c : Bool) (res : BitVec w)
    (hu : OnlyChanges s (u.advance len) dst [] len) :
    OnlyChanges s ((u.setFlags (setShift s.isV0 c res s.flags)).advance len) dst (shiftBits s) len := by
  unfold shiftBits
  cases hv : s.isV0 with
  | true =>
    refine hu.setFlags _ fun j hj => ?_
    have h8 : j ≠ 8 := by simpa using hj
    simp [h8]
  | false => exact hu.setCOSZ c false res

/-- Where a shift's flags were written from `c` and a result, they are what R120 says. -/
theorem ShiftFlags.of_setShift {w : Nat} {s t : State} {c : Bool} {res : BitVec w}
    (h : t.flags = setShift s.isV0 c res s.flags) : ShiftFlags s t c res := by
  unfold ShiftFlags
  cases hv : s.isV0 with
  | true => simp [h, hv]
  | false =>
    rw [hv, setShift_v3plus] at h
    exact ⟨by simp [h], fun _ => ⟨by simp [h], FlagsSZ.of_setCOSZ h⟩⟩

/-- `t` is `s` after a shift of form `f` wrote `res`, with `c` the last bit shifted out. -/
structure WritesShift (sz : Size) (f : ShiftForm) (c : Bool) (res : BitVec (width sz)) (s t : State) : Prop where
  frame : OnlyChanges s t (some f.toAlu.dst) (shiftBits s) f.toAlu.len
  high : KeepsHigh sz f.toAlu.dst s t
  value : lo sz (t.reg f.toAlu.dst) = res
  flags : ShiftFlags s t c (lo sz (t.reg f.toAlu.dst))

theorem finishShift_writesShift (sz : Size) (f : ShiftForm) (c : Bool) (res : BitVec (width sz)) (s : State) :
    ∃ t, finishShift sz f c res s = .next t ∧ WritesShift sz f c res s t := by
  have hvalue : lo sz ((s.writeSized sz f.toAlu.dst res).reg f.toAlu.dst) = res := by simp
  refine ⟨_, State.done_eq _ _, ?_⟩
  exact {
    frame := (OnlyChanges.writeSized s sz f.toAlu.dst res f.toAlu.len).setShift c res
    high := ((KeepsHigh.writeSized s sz f.toAlu.dst res).setFlags _).advance _
    value := hvalue
    flags := hvalue.symm ▸ ShiftFlags.of_setShift rfl }

/-- The low bits of the destination are the bits of the result. -/
theorem WritesShift.getLsbD_dst {sz : Size} {f : ShiftForm} {c : Bool} {res : BitVec (width sz)} {s t : State}
    (h : WritesShift sz f c res s t) (j : Nat) (hj : j < width sz) :
    (t.reg f.toAlu.dst).getLsbD j = res.getLsbD j := by
  rw [← h.value, getLsbD_lo, decide_eq_true hj, Bool.true_and]

/-! What the five shifts answer. -/

theorem exec_shl_writesShift (sz : Size) (f : ShiftForm) (s : State) :
    let a := lo sz (f.toAlu.src1 s)
    let n := (f.toAlu.src2 .truncated s).toNat % width sz
    ∃ t, exec (.shl sz f) s = .next t ∧
      WritesShift sz f (decide (n ≠ 0) && a.getLsbD (width sz - n)) (a <<< n) s t := by
  intro a n
  rw [← lastOutLeft_eq, show n = shiftAmount sz f s from (shiftAmount_eq sz f s).symm]
  exact finishShift_writesShift sz f _ _ s

theorem exec_shr_writesShift (sz : Size) (f : ShiftForm) (s : State) :
    let a := lo sz (f.toAlu.src1 s)
    let n := (f.toAlu.src2 .truncated s).toNat % width sz
    ∃ t, exec (.shr sz f) s = .next t ∧
      WritesShift sz f (decide (n ≠ 0) && a.getLsbD (n - 1)) (a >>> n) s t := by
  intro a n
  rw [← lastOutRight_eq, show n = shiftAmount sz f s from (shiftAmount_eq sz f s).symm]
  exact finishShift_writesShift sz f _ _ s

theorem exec_sar_writesShift (sz : Size) (f : ShiftForm) (s : State) :
    let a := lo sz (f.toAlu.src1 s)
    let n := (f.toAlu.src2 .truncated s).toNat % width sz
    ∃ t, exec (.sar sz f) s = .next t ∧
      WritesShift sz f (decide (n ≠ 0) && a.getLsbD (n - 1)) (a.sshiftRight n) s t := by
  intro a n
  rw [← lastOutRight_eq, show n = shiftAmount sz f s from (shiftAmount_eq sz f s).symm,
    ← ushiftRight_or_signFill a (shiftAmount_lt_width sz f s)]
  exact finishShift_writesShift sz f _ _ s

theorem exec_shlc_writesShift (sz : Size) (f : ShiftForm) (s : State) :
    let a := lo sz (f.toAlu.src1 s)
    let n := (f.toAlu.src2 .truncated s).toNat % width sz
    ∃ t, exec (.shlc sz f) s = .next t ∧
      WritesShift sz f (decide (n ≠ 0) && a.getLsbD (width sz - n))
        (a <<< n ||| if n = 0 then 0#(width sz) else carryBit sz (n - 1) s) s t := by
  intro a n
  rw [← lastOutLeft_eq, show n = shiftAmount sz f s from (shiftAmount_eq sz f s).symm]
  exact finishShift_writesShift sz f _ _ s

theorem exec_shrc_writesShift (sz : Size) (f : ShiftForm) (s : State) :
    let a := lo sz (f.toAlu.src1 s)
    let n := (f.toAlu.src2 .truncated s).toNat % width sz
    ∃ t, exec (.shrc sz f) s = .next t ∧
      WritesShift sz f (decide (n ≠ 0) && a.getLsbD (n - 1))
        (a >>> n ||| if n = 0 then 0#(width sz) else carryBit sz (width sz - n) s) s t := by
  intro a n
  rw [← lastOutRight_eq, show n = shiftAmount sz f s from (shiftAmount_eq sz f s).symm]
  exact finishShift_writesShift sz f _ _ s

/-- Settles O32: `shl` ends in the shared write, of the BitVec left shift, which multiplies modulo `2^sz`. -/
theorem shlShiftsLeft : Obligations.ShlShiftsLeft := by
  intro sz f s a n
  obtain ⟨t, hexec, h⟩ := exec_shl_writesShift sz f s
  refine ⟨t, hexec, h.frame, h.high, ?_, h.flags⟩
  rw [h.value, BitVec.toNat_shiftLeft, Nat.shiftLeft_eq]

/-- Settles O33: `shr` ends in the shared write, of the BitVec right shift, which divides. -/
theorem shrShiftsRight : Obligations.ShrShiftsRight := by
  intro sz f s a n
  obtain ⟨t, hexec, h⟩ := exec_shr_writesShift sz f s
  refine ⟨t, hexec, h.frame, h.high, ?_, h.flags⟩
  rw [h.value, BitVec.toNat_ushiftRight, Nat.shiftRight_eq_div_pow]

/-- Settles O34: `sar` ends in the shared write, of the arithmetic right shift, whose bits above the source are the
sign. -/
theorem sarShiftsTheSignIn : Obligations.SarShiftsTheSignIn := by
  intro sz f s a n
  obtain ⟨t, hexec, h⟩ := exec_sar_writesShift sz f s
  refine ⟨t, hexec, h.frame, h.high, fun j hj => ?_, h.flags⟩
  rw [h.getLsbD_dst j hj, BitVec.getLsbD_sshiftRight, decide_eq_false hj.not_ge, Bool.not_false, Bool.true_and,
    Nat.add_comm]

/-- Settles O35: `shlc` ends in the shared write, of the left shift with the old carry put in below it. -/
theorem shlcShiftsTheCarryIn : Obligations.ShlcShiftsTheCarryIn := by
  intro sz f s a n
  obtain ⟨t, hexec, h⟩ := exec_shlc_writesShift sz f s
  refine ⟨t, hexec, h.frame, h.high, fun j hj => ?_, h.flags⟩
  rw [h.getLsbD_dst j hj, getLsbD_shiftLeft_or_carryBelow a n s j hj]

/-- Settles O36: `shrc` ends in the shared write, of the right shift with the old carry put in above it. -/
theorem shrcShiftsTheCarryIn : Obligations.ShrcShiftsTheCarryIn := by
  intro sz f s a n
  have hn : n < width sz := Nat.mod_lt _ (width_pos sz)
  obtain ⟨t, hexec, h⟩ := exec_shrc_writesShift sz f s
  refine ⟨t, hexec, h.frame, h.high, fun j hj => ?_, h.flags⟩
  rw [h.getLsbD_dst j hj, getLsbD_ushiftRight_or_carryAbove a n s j hn hj]

end Sys2Proof.Machine
end

section
/-! PROOF. What the shared end of the unary operations does to the state, the value of each result, and with them
`not`, `neg`, `movf`, `mov` (register) and `hswap` (R130 to R135). -/

namespace Sys2Proof.Machine

/-! The frame and the meaning of a write of `o`, `s` and `z`. -/

/-- A write of `o`, `s` and `z` keeps every other bit, `c` among them, beside whatever register write (R130). -/
theorem OnlyChanges.setOSZ {s u : State} {dst : Option Reg} {len w : Nat} (o : Bool) (res : BitVec w)
    (hu : OnlyChanges s (u.advance len) dst [] len) :
    OnlyChanges s ((u.setFlags (setOSZ o res s.flags)).advance len) dst [9, 10, 11] len := by
  refine hu.setFlags _ fun j hj => ?_
  obtain ⟨h9, h10, h11⟩ : j ≠ 9 ∧ j ≠ 10 ∧ j ≠ 11 := by simpa using hj
  simp [h9, h10, h11]

/-- Where `o`, `s` and `z` were written from a result, `s` and `z` are the result's. -/
theorem FlagsSZ.of_setOSZ {w : Nat} {t : State} {o : Bool} {res : BitVec w} {fl : Word}
    (h : t.flags = Machine.setOSZ o res fl) : FlagsSZ t res := by
  simp [FlagsSZ, h]

/-! The results. -/

/-- Negation fixes the most negative value, so that it is also the only source that negates to it (R132). -/
theorem neg_eq_intMin_iff {w : Nat} (a : BitVec w) (hw : 0 < w) :
    -a = BitVec.intMin w ↔ a.toNat = 2 ^ (w - 1) := by
  have hlt : 2 ^ (w - 1) < 2 ^ w := Nat.pow_lt_pow_right Nat.one_lt_two (by omega)
  rw [neg_eq_iff_eq_neg, BitVec.neg_intMin, ← BitVec.toNat_inj, BitVec.toNat_intMin, Nat.mod_eq_of_lt hlt]

/-- Where the width is twice `h`, the two shifts by `h` put the halves in each other's place: bit `j` comes from the
upper half for the lower `j`, and around the end for the upper `j` (R135). -/
theorem getLsbD_swapHalves {w h : Nat} (a : BitVec w) (hw : w = 2 * h) (j : Nat) (hj : j < w) :
    (a >>> h ||| a <<< h).getLsbD j = a.getLsbD ((j + h) % w) := by
  rw [BitVec.getLsbD_or, BitVec.getLsbD_ushiftRight, BitVec.getLsbD_shiftLeft]
  by_cases hlow : j < h
  · have hsrc : (j + h) % w = h + j := by rw [Nat.mod_eq_of_lt (by omega), Nat.add_comm]
    simp [hlow, hsrc]
  · have hsrc : (j + h) % w = j - h := by
      rw [Nat.mod_eq_sub_mod (by omega), Nat.mod_eq_of_lt (by omega)]
      omega
    have hgone : a.getLsbD (h + j) = false := BitVec.getLsbD_of_ge a _ (by omega)
    simp [hj, hlow, hsrc, hgone]

theorem width_eq_two_mul_half (sz : Size) : width sz = 2 * (width sz / 2) := by cases sz <;> rfl

/-! The shared end of the unary operations that write flags (R130). -/

/-- `t` is `s` after a unary operation of form `f` wrote `res`, the flag `o`, and the `s` and `z` of `res`. -/
structure WritesUnary (sz : Size) (f : UnaryForm) (o : Bool) (res : BitVec (width sz)) (s t : State) : Prop where
  frame : OnlyChanges s t (some f.dst) [9, 10, 11] f.len
  high : KeepsHigh sz f.dst s t
  value : lo sz (t.reg f.dst) = res
  overflow : t.flags.getLsbD 9 = o
  signZero : FlagsSZ t res

theorem finishUnary_writesUnary (sz : Size) (f : UnaryForm) (o : Bool) (res : BitVec (width sz)) (s : State) :
    ∃ t, finishUnary sz f o res s = .next t ∧ WritesUnary sz f o res s t := by
  refine ⟨_, State.done_eq _ _, ?_⟩
  exact {
    frame := (OnlyChanges.writeSized s sz f.dst res f.len).setOSZ o res
    high := ((KeepsHigh.writeSized s sz f.dst res).setFlags _).advance _
    value := by simp
    overflow := by simp
    signZero := FlagsSZ.of_setOSZ rfl }

section
variable {sz : Size} {f : UnaryForm} {o : Bool} {res : BitVec (width sz)} {s t : State}

/-- The low bits of the destination are the bits of the result. -/
theorem WritesUnary.getLsbD_dst (h : WritesUnary sz f o res s t) (j : Nat) (hj : j < width sz) :
    (t.reg f.dst).getLsbD j = res.getLsbD j := by
  rw [← h.value, getLsbD_lo, decide_eq_true hj, Bool.true_and]

/-- `s` and `z` are those of what the destination holds. -/
theorem WritesUnary.flagsSZ_dst (h : WritesUnary sz f o res s t) : FlagsSZ t (lo sz (t.reg f.dst)) :=
  h.value.symm ▸ h.signZero

end

/-! What the unary operations answer. -/

theorem exec_not_writesUnary (sz : Size) (f : UnaryForm) (s : State) :
    ∃ t, exec (.not sz f) s = .next t ∧ WritesUnary sz f false (~~~lo sz (f.src s)) s t :=
  finishUnary_writesUnary sz f _ _ s

theorem exec_neg_writesUnary (sz : Size) (f : UnaryForm) (s : State) :
    let a := lo sz (f.src s)
    ∃ t, exec (.neg sz f) s = .next t ∧ WritesUnary sz f (-a == BitVec.intMin (width sz)) (-a) s t := by
  intro a
  rw [← BitVec.zero_sub a]
  exact finishUnary_writesUnary sz f _ _ s

theorem exec_movf_writesUnary (sz : Size) (f : UnaryForm) (s : State) (h : s.isV0 = true) :
    ∃ t, exec (.movf sz f) s = .next t ∧ WritesUnary sz f false (lo sz (f.src s)) s t := by
  have hexec : exec (.movf sz f) s = finishUnary sz f false (lo sz (f.src s)) s := onlyV0_of_v0 s _ h
  rw [hexec]
  exact finishUnary_writesUnary sz f _ _ s

theorem exec_movReg_of_v3plus (sz : Size) (f : UnaryForm) (s : State) (h : s.isV0 = false) :
    exec (.movReg sz f) s = .next ((s.writeSized sz f.dst (lo sz (f.src s))).advance f.len) :=
  onlyV3plus_of_v3plus s _ h

theorem exec_hswap_writesUnary (sz : Size) (f : UnaryForm) (s : State) :
    let a := lo sz (f.src s)
    let h := width sz / 2
    ∃ t, exec (.hswap sz f) s = .next t ∧ WritesUnary sz f false (a >>> h ||| a <<< h) s t :=
  finishUnary_writesUnary sz f _ _ s

/-- Settles O37: `not` ends in the shared write, of the complement. -/
theorem notFlipsEveryBit : Obligations.NotFlipsEveryBit := by
  intro sz f s
  obtain ⟨t, hexec, h⟩ := exec_not_writesUnary sz f s
  refine ⟨t, hexec, h.frame, h.high, fun j hj => ?_, h.overflow, h.flagsSZ_dst⟩
  rw [h.getLsbD_dst j hj, BitVec.getLsbD_not, getLsbD_lo, decide_eq_true hj, Bool.true_and, Bool.true_and]

/-- Settles O38: `neg` ends in the shared write, of the BitVec negation, with `o` where that is the most negative
value. -/
theorem negNegates : Obligations.NegNegates := by
  intro sz f s a
  obtain ⟨t, hexec, h⟩ := exec_neg_writesUnary sz f s
  refine ⟨t, hexec, h.frame, h.high, ?_, ?_, h.flagsSZ_dst⟩
  · rw [h.value, BitVec.toNat_neg]
  · rw [h.overflow, beq_iff_eq, neg_eq_intMin_iff _ (width_pos sz)]

/-- Settles O39: on v0 `movf` ends in the shared write, of the source; on v3+ `mov` is the sized register write
alone. -/
theorem registerMovesByVersion : Obligations.RegisterMovesByVersion := by
  intro sz f s
  constructor
  · intro hv0
    obtain ⟨t, hexec, h⟩ := exec_movf_writesUnary sz f s hv0
    exact ⟨t, hexec, h.frame, h.high, h.value, h.overflow, h.signZero⟩
  · intro hv3plus
    refine ⟨_, exec_movReg_of_v3plus sz f s hv3plus, OnlyChanges.writeSized s sz f.dst _ f.len,
      (KeepsHigh.writeSized s sz f.dst _).advance f.len, ?_⟩
    rw [State.advance_reg, State.reg_writeSized_same, lo_mergeSized]

/-- Settles O40: `hswap` ends in the shared write, of the source with its halves in each other's place. -/
theorem hswapRotatesByHalf : Obligations.HswapRotatesByHalf := by
  intro sz f s
  obtain ⟨t, hexec, h⟩ := exec_hswap_writesUnary sz f s
  refine ⟨t, hexec, h.frame, h.high, fun j hj => ?_, h.overflow, h.flagsSZ_dst⟩
  have hmod : (j + width sz / 2) % width sz < width sz := Nat.mod_lt _ (width_pos sz)
  rw [h.getLsbD_dst j hj, getLsbD_swapHalves _ (width_eq_two_mul_half sz) j hj, getLsbD_lo, decide_eq_true hmod,
    Bool.true_and]

end Sys2Proof.Machine
end

section
/-! PROOF. What an immediate load leaves in its register, what `clear` and `setf` answer, and with them the exact
results and frames of `mov` (immediate), `sethi`, `clear` and `setf` (R140 to R144). -/

namespace Sys2Proof.Machine

/-! The extended immediates, as numbers. -/

/-- Sign extension keeps the signed value (R64). -/
theorem toInt_extend_sign {m : Nat} (imm : BitVec m) (hm : m ≤ 32) : (extend .sign imm).toInt = imm.toInt :=
  BitVec.toInt_signExtend_of_le hm

/-- A zero-extended immediate of at most 16 bits fits in a half (R64). -/
theorem toNat_lowHalf_extend_zero {m : Nat} (imm : BitVec m) (hm : m ≤ 16) :
    ((extend .zero imm).setWidth 16).toNat = imm.toNat := by
  have hlt : imm.toNat < 2 ^ 16 := Nat.lt_of_lt_of_le imm.isLt (Nat.pow_le_pow_right (by decide) hm)
  have hlt32 : imm.toNat < 2 ^ 32 := by omega
  rw [extend, BitVec.toNat_setWidth, BitVec.toNat_setWidth, Nat.mod_eq_of_lt hlt32, Nat.mod_eq_of_lt hlt]

/-- A word in halves, as a number. -/
theorem toNat_append_half (high low : Half) : (high ++ low : Word).toNat = high.toNat * 65536 + low.toNat := by
  rw [BitVec.toNat_append, ← Nat.shiftLeft_add_eq_or_of_lt low.isLt, Nat.shiftLeft_eq]

/-- The word that `sethi` writes, as a number (R142). -/
theorem toNat_sethiWord {m : Nat} (imm : BitVec m) (hm : m ≤ 16) (old : Word) :
    ((extend .zero imm).setWidth 16 ++ old.setWidth 16 : Word).toNat = imm.toNat * 65536 + old.toNat % 65536 := by
  rw [toNat_append_half, toNat_lowHalf_extend_zero imm hm, BitVec.toNat_setWidth]

/-! What the four instructions answer. -/

theorem exec_movImm_writes (f : ImmForm) (s : State) :
    ∃ t, exec (.movImm f) s = .next t ∧ OnlyChanges s t (some f.dst) [] f.len ∧ t.reg f.dst = f.src .sign :=
  ⟨_, exec_movImm f s, OnlyChanges.setReg s f.dst _ f.len, State.reg_setReg_same s f.dst _⟩

theorem exec_sethi_writes (f : ImmForm) (s : State) :
    ∃ t, exec (.sethi f) s = .next t ∧ OnlyChanges s t (some f.dst) [] f.len ∧
      t.reg f.dst = ((f.src .zero).setWidth 16 ++ (s.reg f.dst).setWidth 16 : Word) :=
  ⟨_, exec_sethi f s, OnlyChanges.setReg s f.dst _ f.len, State.reg_setReg_same s f.dst _⟩

theorem exec_clear (sz : Size) (r2 : Reg) (s : State) :
    exec (.clear sz r2) s = .next ((s.writeSized sz r2 0).advance oneRegLen) := rfl

theorem exec_setf_of_v0 (sz : Size) (r2 : Reg) (s : State) (h : s.isV0 = true) :
    exec (.setf sz r2) s = .refused .notPresentOnVersion :=
  onlyV3plus_of_v0 s _ h

theorem exec_setf_of_v3plus (sz : Size) (r2 : Reg) (s : State) (h : s.isV0 = false) :
    exec (.setf sz r2) s =
      .next ((s.setFlags (setOSZ false (lo sz (s.reg r2)) s.flags)).advance oneRegLen) :=
  onlyV3plus_of_v3plus s _ h

/-- Settles O41: in each form the register holds the extended immediate, and sign extension keeps its value. -/
theorem movImmediateLoadsSignExtended : Obligations.MovImmediateLoadsSignExtended := by
  intro s r2 i8 i16
  constructor
  · obtain ⟨t, hexec, hframe, hreg⟩ := exec_movImm_writes (.r2i8 r2 i8) s
    exact ⟨t, hexec, hframe, (congrArg BitVec.toInt hreg).trans (toInt_extend_sign i8 (by decide))⟩
  · obtain ⟨t, hexec, hframe, hreg⟩ := exec_movImm_writes (.r2i16 r2 i16) s
    exact ⟨t, hexec, hframe, (congrArg BitVec.toInt hreg).trans (toInt_extend_sign i16 (by decide))⟩

/-- Settles O42: in each form the register holds the immediate above its old low half. -/
theorem sethiReplacesTheHighHalf : Obligations.SethiReplacesTheHighHalf := by
  intro s r2 i8 i16
  constructor
  · obtain ⟨t, hexec, hframe, hreg⟩ := exec_sethi_writes (.r2i8 r2 i8) s
    exact ⟨t, hexec, hframe, (congrArg BitVec.toNat hreg).trans (toNat_sethiWord i8 (by decide) (s.reg r2))⟩
  · obtain ⟨t, hexec, hframe, hreg⟩ := exec_sethi_writes (.r2i16 r2 i16) s
    exact ⟨t, hexec, hframe, (congrArg BitVec.toNat hreg).trans (toNat_sethiWord i16 (by decide) (s.reg r2))⟩

/-- Settles O44: `clear` is the sized register write alone, of 0. -/
theorem clearZeroesTheLowBits : Obligations.ClearZeroesTheLowBits := by
  intro sz r2 s
  refine ⟨_, exec_clear sz r2 s, OnlyChanges.writeSized s sz r2 0 oneRegLen,
    (KeepsHigh.writeSized s sz r2 0).advance oneRegLen, fun j hj => ?_⟩
  rw [State.advance_reg, State.reg_writeSized_same, getLsbD_mergeSized, if_pos hj]
  exact BitVec.getLsbD_zero

/-- Settles O45: on v3+ `setf` is the write of `o`, `s` and `z` alone, from the low bits of its register. -/
theorem setfTestsAValue : Obligations.SetfTestsAValue := by
  intro sz r2 s
  constructor
  · exact exec_setf_of_v0 sz r2 s
  · intro hv3plus
    exact ⟨_, exec_setf_of_v3plus sz r2 s hv3plus, (OnlyChanges.advance s oneRegLen).setOSZ false _, by simp,
      FlagsSZ.of_setOSZ rfl⟩

end Sys2Proof.Machine
end

section
/-! PROOF. Products of half words extended to a word are exact, unsigned and signed, and with them the results and
frames of `mulu` and `muls` (R151, R152). -/

namespace Sys2Proof.Machine

/-! Exact products: a product of two `w`-bit numbers fits in `2 * w` bits. -/

theorem toNat_mul_setWidth_double {w : Nat} (a b : BitVec w) :
    (a.setWidth (w * 2) * b.setWidth (w * 2)).toNat = a.toNat * b.toNat := by
  have hext (c : BitVec w) : (c.setWidth (w * 2)).toNat = c.toNat := BitVec.toNat_setWidth_of_le (by omega)
  have hfits : (a.setWidth (w * 2)).toNat * (b.setWidth (w * 2)).toNat < 2 ^ (w * 2) := by
    rw [hext, hext]
    exact BitVec.toNat_mul_toNat_lt
  rw [BitVec.toNat_mul_of_lt hfits, hext, hext]

/-- The extreme product is `2 ^ (2 * w - 2)`, of the most negative number with itself, so that a bit is to spare. -/
theorem toInt_mul_signExtend_double {w : Nat} (hw : 0 < w) (a b : BitVec w) :
    (a.signExtend (w * 2) * b.signExtend (w * 2)).toInt = a.toInt * b.toInt := by
  have hext (c : BitVec w) : (c.signExtend (w * 2)).toInt = c.toInt := BitVec.toInt_signExtend_of_le (by omega)
  have hlow : -2 ^ (w * 2 - 2) ≤ a.toInt * b.toInt := BitVec.le_toInt_mul_toInt
  have hhigh : a.toInt * b.toInt ≤ 2 ^ (w * 2 - 2) := BitVec.toInt_mul_toInt_le
  have hpos : (0 : Int) < 2 ^ (w * 2 - 2) := by positivity
  have hhalf : (2 : Int) ^ (w * 2 - 1) = 2 * 2 ^ (w * 2 - 2) := by
    rw [← pow_succ', show w * 2 - 2 + 1 = w * 2 - 1 by omega]
  have hfits : ¬ (a.signExtend (w * 2)).smulOverflow (b.signExtend (w * 2)) = true := by
    simp only [BitVec.smulOverflow, hext, hhalf, Bool.or_eq_true, decide_eq_true_iff]
    omega
  rw [BitVec.toInt_mul_of_not_smulOverflow hfits, hext, hext]

/-! The sources' low halves (R150). -/

/-- The mask of R151 leaves the low half, zero-extended. -/
theorem and_halfMask_eq_setWidth (v : Word) : v &&& 0xFFFF#32 = (v.setWidth 16).setWidth 32 := by
  apply BitVec.eq_of_toNat_eq
  rw [BitVec.toNat_and, BitVec.toNat_setWidth_of_le (by decide), BitVec.toNat_setWidth]
  exact Nat.and_two_pow_sub_one_eq_mod v.toNat 16

theorem toNat_mul_halfMask (v u : Word) :
    ((v &&& 0xFFFF#32) * (u &&& 0xFFFF#32)).toNat = v.toNat % 65536 * (u.toNat % 65536) := by
  have hexact := toNat_mul_setWidth_double (v.setWidth 16) (u.setWidth 16)
  rwa [BitVec.toNat_setWidth, BitVec.toNat_setWidth, ← and_halfMask_eq_setWidth, ← and_halfMask_eq_setWidth] at hexact

theorem toInt_mul_signedHalf (v u : Word) :
    (signedHalf v * signedHalf u).toInt = (v.setWidth 16).toInt * (u.setWidth 16).toInt :=
  toInt_mul_signExtend_double (by decide) (v.setWidth 16) (u.setWidth 16)

/-! What the two instructions answer. -/

theorem exec_mulu (f : AluForm) (s : State) :
    exec (.mulu f) s =
      .next ((s.setReg f.dst ((f.src1 s &&& 0xFFFF#32) * (f.src2 .zero s &&& 0xFFFF#32))).advance f.len) := rfl

theorem exec_muls (f : AluForm) (s : State) :
    exec (.muls f) s =
      .next ((s.setReg f.dst (signedHalf (f.src1 s) * signedHalf (f.src2 .sign s))).advance f.len) := rfl

/-- Settles O46: `mulu` is the write of one register alone, of the masked sources' product, which fits in a word. -/
theorem muluMultipliesLowHalves : Obligations.MuluMultipliesLowHalves := by
  intro f s
  refine ⟨_, exec_mulu f s, OnlyChanges.setReg s f.dst _ f.len, ?_⟩
  rw [State.advance_reg, State.reg_setReg_same, toNat_mul_halfMask]

/-- Settles O47: `muls` is the write of one register alone, of the product of the sign-extended low halves, which fits
in a word. -/
theorem mulsMultipliesSignedLowHalves : Obligations.MulsMultipliesSignedLowHalves := by
  intro f s
  refine ⟨_, exec_muls f s, OnlyChanges.setReg s f.dst _ f.len, ?_⟩
  rw [State.advance_reg, State.reg_setReg_same, toInt_mul_signedHalf]

end Sys2Proof.Machine
end

section
/-! PROOF. The bits of a sign extension from any index and of a bitfield, what `sext` and `extr` answer, and with them
the two instructions (R160 to R162). -/

namespace Sys2Proof.Machine

/-! The frame of a write of `s` and `z`. -/

/-- A write of `s` and `z` keeps every other bit, `c` and `o` among them, beside whatever register write (R161,
R162). -/
theorem OnlyChanges.setZ_setS {s u : State} {dst : Option Reg} {len : Nat} (z sign : Bool)
    (hu : OnlyChanges s (u.advance len) dst [] len) :
    OnlyChanges s ((u.setFlags (setZ z (setS sign s.flags))).advance len) dst [10, 11] len := by
  refine hu.setFlags _ fun j hj => ?_
  obtain ⟨h10, h11⟩ : j ≠ 10 ∧ j ≠ 11 := by simpa using hj
  simp [h10, h11]

/-- Where `s` and `z` were written from a result, they are the result's. -/
theorem FlagsSZ.of_setSZ {w : Nat} {t : State} {res : BitVec w} {fl : Word} (h : t.flags = setSZ res fl) :
    FlagsSZ t res := by
  simp [FlagsSZ, h]

/-! The bits of the results. -/

/-- Bits `n` down to 0, sign-extended: up to the index each bit is the source's, and past it the sign, which is bit
`n` (R161). -/
theorem getLsbD_signExtend_lowBits {w : Nat} (v : BitVec w) (n j : Nat) (hj : j < w) :
    ((v.extractLsb' 0 (n + 1)).signExtend w).getLsbD j = v.getLsbD (min j n) := by
  have hsign : (v.extractLsb' 0 (n + 1)).msb = v.getLsbD n := by simp [BitVec.msb_eq_getLsbD_last]
  rw [BitVec.getLsbD_signExtend, hsign]
  by_cases hin : j < n + 1
  · have hmin : min j n = j := by omega
    simp [hj, hin, hmin]
  · have hmin : min j n = n := by omega
    simp [hj, hin, hmin]

theorem getLsbD_lowMask (n j : Nat) (hj : j < 32) : (lowMask n).getLsbD j = decide (j < n) := by
  rw [lowMask, BitVec.getLsbD_ofNat, Nat.testBit_two_pow_sub_one, decide_eq_true hj, Bool.true_and]

/-- The field's bits, and 0 above it; a field that runs past bit 31 reads 0 there (R162). -/
theorem getLsbD_bitfield (v desc : Word) (j : Nat) (hj : j < 32) :
    (bitfield v desc).getLsbD j =
      (decide (j ≤ desc.toNat / 32 % 32) && v.getLsbD (desc.toNat % 32 + j)) := by
  rw [bitfield, BitVec.getLsbD_and, BitVec.getLsbD_ushiftRight, getLsbD_lowMask _ _ hj, fieldLow_eq, fieldSizem1_eq,
    Bool.and_comm, decide_eq_decide.mpr Nat.lt_succ_iff]

/-! What the two instructions answer. -/

theorem exec_sext (f : ShiftForm) (s : State) :
    let n := (f.toAlu.src2 .truncated s).toNat % 32
    let res : Word := ((f.toAlu.src1 s).extractLsb' 0 (n + 1)).signExtend 32
    exec (.sext f) s =
      .next (((s.setReg f.toAlu.dst res).setFlags (setSZ res s.flags)).advance f.toAlu.len) := by
  rw [← bitIndex_eq]
  rfl

theorem exec_extr_of_v0 (f : FieldForm) (s : State) (h : s.isV0 = true) :
    exec (.extr f) s = .refused .notPresentOnVersion :=
  onlyV3plus_of_v0 s _ h

theorem exec_extr_of_v3plus (f : FieldForm) (s : State) (h : s.isV0 = false) :
    let bf := bitfield (f.toAlu.src1 s) (f.toAlu.src2 .zero s)
    exec (.extr f) s =
      .next (((s.setReg f.toAlu.dst bf).setFlags (setZ (bf == 0) (setS false s.flags))).advance f.toAlu.len) :=
  onlyV3plus_of_v3plus s _ h

/-- Settles O48: `sext` writes the sign extension of the bits up to the index, and its `s` and `z`. -/
theorem sextCopiesTheSignBit : Obligations.SextCopiesTheSignBit := by
  intro f s n
  refine ⟨_, exec_sext f s, (OnlyChanges.setReg s f.toAlu.dst _ f.toAlu.len).setZ_setS _ _, fun j hj => ?_, ?_⟩
  · rw [State.advance_reg, State.setFlags_reg, State.reg_setReg_same, getLsbD_signExtend_lowBits _ _ _ hj]
  · rw [State.advance_reg, State.setFlags_reg, State.reg_setReg_same]
    exact FlagsSZ.of_setSZ rfl

/-- Settles O49: on v3+ `extr` writes the bitfield, `s` as 0 and `z` as the bitfield's zero test. -/
theorem extrExtractsUnsigned : Obligations.ExtrExtractsUnsigned := by
  intro f s low sizem1
  refine ⟨exec_extr_of_v0 f s, fun hv3plus => ?_⟩
  refine ⟨_, exec_extr_of_v3plus f s hv3plus, (OnlyChanges.setReg s f.toAlu.dst _ f.toAlu.len).setZ_setS _ _,
    fun j hj => ?_, ?_, ?_⟩
  · rw [State.advance_reg, State.setFlags_reg, State.reg_setReg_same, getLsbD_bitfield _ _ j hj]
  · simp
  · simp

end Sys2Proof.Machine
end

section
/-! PROOF. What the shared end of `and`, `or` and `xor` does to the state, by version, and with it the three
instructions (R170 to R173). -/

namespace Sys2Proof.Machine

/-! The frame and the meaning of the flag write of a bitwise operation. -/

/-- A bitwise operation's flag write keeps every bit but those of its version, beside whatever register write. -/
theorem OnlyChanges.setLogic {s u : State} {dst : Option Reg} {len : Nat} (res : Word)
    (hu : OnlyChanges s (u.advance len) dst [] len) :
    OnlyChanges s ((u.setFlags (setLogic s.isV0 res s.flags)).advance len) dst (logicBits s) len := by
  unfold logicBits
  cases s.isV0 with
  | true => exact hu.setFlags _ fun _ _ => rfl
  | false => exact hu.setCOSZ false false res

/-- Where the flags of a bitwise operation were written from a result, they are what R170 says. -/
theorem LogicFlags.of_setLogic {s t : State} {res : Word} (h : t.flags = setLogic s.isV0 res s.flags) :
    LogicFlags s t res := by
  intro hv3plus
  rw [hv3plus, setLogic_v3plus] at h
  exact ⟨by simp [h], by simp [h], FlagsSZ.of_setCOSZ h⟩

/-! The shared end of the three instructions (R170). -/

/-- `t` is `s` after a bitwise operation of form `f` wrote `res` and the flags of what it wrote. -/
structure WritesLogic (f : AluForm) (res : Word) (s t : State) : Prop where
  frame : OnlyChanges s t (some f.dst) (logicBits s) f.len
  value : t.reg f.dst = res
  flags : LogicFlags s t (t.reg f.dst)

theorem finishLogic_writesLogic (f : AluForm) (res : Word) (s : State) :
    ∃ t, finishLogic f res s = .next t ∧ WritesLogic f res s t := by
  have hvalue : (s.setReg f.dst res).reg f.dst = res := State.reg_setReg_same s f.dst res
  refine ⟨_, State.done_eq _ _, ?_⟩
  exact {
    frame := (OnlyChanges.setReg s f.dst res f.len).setLogic res
    value := hvalue
    flags := hvalue.symm ▸ LogicFlags.of_setLogic rfl }

/-! What the three instructions answer. -/

theorem exec_and_writesLogic (f : AluForm) (s : State) :
    ∃ t, exec (.and f) s = .next t ∧ WritesLogic f (f.src1 s &&& f.src2 .zero s) s t :=
  finishLogic_writesLogic f _ s

theorem exec_or_writesLogic (f : AluForm) (s : State) :
    ∃ t, exec (.or f) s = .next t ∧ WritesLogic f (f.src1 s ||| f.src2 .zero s) s t :=
  finishLogic_writesLogic f _ s

theorem exec_xor_writesLogic (f : AluForm) (s : State) :
    ∃ t, exec (.xor f) s = .next t ∧ WritesLogic f (f.src1 s ^^^ f.src2 .zero s) s t :=
  finishLogic_writesLogic f _ s

/-- Settles O52: each of the three ends in the shared write, of the BitVec operation, whose bits are the sources'
combined one by one. -/
theorem bitwiseOperations : Obligations.BitwiseOperations := by
  intro f s
  refine ⟨?and, ?or, ?xor⟩
  case and =>
    obtain ⟨t, hexec, h⟩ := exec_and_writesLogic f s
    exact ⟨t, hexec, h.frame, fun j => by rw [h.value, BitVec.getLsbD_and], h.flags⟩
  case or =>
    obtain ⟨t, hexec, h⟩ := exec_or_writesLogic f s
    exact ⟨t, hexec, h.frame, fun j => by rw [h.value, BitVec.getLsbD_or], h.flags⟩
  case xor =>
    obtain ⟨t, hexec, h⟩ := exec_xor_writesLogic f s
    exact ⟨t, hexec, h.frame, fun j => by rw [h.value, BitVec.getLsbD_xor], h.flags⟩

end Sys2Proof.Machine
end

section
/-! PROOF. What an access to a bit of `$flags` answers where the bit may be accessed, what the shared meaning of `bset`,
`bclr` and `btgl` does to one bit, the single bit as a bitfield of size 1, and with them the bit operations (R180 to
R184). -/

namespace Sys2Proof.Machine

/-- Where the bit may be accessed, the access is the meaning it guards (R25, R26). -/
theorem onFlagsBit_of_free (s : State) (n : Nat) (m : Result) (h : FlagsBitFree s n) : onFlagsBit s n m = m :=
  if_pos ((s.flagsBitUsable_iff n).mpr h)

/-! `bset`, `bclr` and `btgl`: one bit of a register or of `$flags`, replaced. -/

/-- `op v n` is `v` with bit `n` replaced by `new` of what it was: the shape of R182, R183 and R184. -/
def ReplacesBit (op : Word → Nat → Word) (new : Bool → Bool) : Prop :=
  ∀ (v : Word) (n j : Nat), n < 32 → (op v n).getLsbD j = if j = n then new (v.getLsbD j) else v.getLsbD j

theorem replacesBit_or_twoPow : ReplacesBit (fun v n => v ||| BitVec.twoPow 32 n) fun _ => true :=
  fun v n j hn => getLsbD_putBit n j true v hn

theorem replacesBit_andNot_twoPow : ReplacesBit (fun v n => v &&& ~~~BitVec.twoPow 32 n) fun _ => false :=
  fun v n j hn => getLsbD_putBit n j false v hn

theorem replacesBit_xor_twoPow : ReplacesBit (fun v n => v ^^^ BitVec.twoPow 32 n) Bool.not := by
  intro v n j hn
  rw [BitVec.getLsbD_xor, BitVec.getLsbD_twoPow]
  by_cases hj : j = n
  · simp [hj, hn]
  · simp [hj, Ne.symm hj]

theorem modifyBit_of_reg (op : Word → Nat → Word) {f : BitForm} (s : State) {d : Reg} (h : f.dst = some d) :
    modifyBit op f s = .next ((s.setReg d (op (s.reg d) ((f.src s).toNat % 32))).advance f.len) := by
  simp only [modifyBit, h, bitIndex_eq, State.done_eq]

theorem modifyBit_of_flags (op : Word → Nat → Word) {f : BitForm} (s : State) (h : f.dst = none)
    (hfree : FlagsBitFree s ((f.src s).toNat % 32)) :
    modifyBit op f s = .next ((s.setFlags (op s.flags ((f.src s).toNat % 32))).advance f.len) := by
  simp only [modifyBit, h, bitIndex_eq, onFlagsBit_of_free _ _ _ hfree, State.done_eq]

/-- What the three instructions share: the indexed bit of the destination is replaced, and nothing else but `pc`
changes (R181). -/
theorem modifyBit_replaces {op : Word → Nat → Word} {new : Bool → Bool} (hop : ReplacesBit op new) (f : BitForm)
    (s : State) :
    let n := (f.src s).toNat % 32
    (∀ d, f.dst = some d →
      ∃ t, modifyBit op f s = .next t ∧ OnlyChanges s t (some d) [] f.len ∧
        ∀ j, j < 32 → (t.reg d).getLsbD j = if j = n then new ((s.reg d).getLsbD j) else (s.reg d).getLsbD j) ∧
    (f.dst = none → FlagsBitFree s n →
      ∃ t, modifyBit op f s = .next t ∧ OnlyChanges s t none [n] f.len ∧
        t.flags.getLsbD n = new (s.flags.getLsbD n)) := by
  intro n
  have hn : n < 32 := Nat.mod_lt _ (by decide)
  refine ⟨fun d hd => ?register, fun hnone hfree => ?flags⟩
  case register =>
    refine ⟨_, modifyBit_of_reg op s hd, OnlyChanges.setReg s d _ f.len, fun j _ => ?_⟩
    rw [State.advance_reg, State.reg_setReg_same, hop _ _ _ hn]
  case flags =>
    refine ⟨_, modifyBit_of_flags op s hnone hfree, ?_, ?_⟩
    · refine (OnlyChanges.advance s f.len).setFlags _ fun j hj => ?_
      rw [hop _ _ _ hn, if_neg (by simpa using hj)]
    · rw [State.advance_flags, State.setFlags_flags, hop _ _ _ hn, if_pos rfl]

/-- Settles O54: `bset` replaces the indexed bit by 1. -/
theorem bsetSetsABit : Obligations.BsetSetsABit := modifyBit_replaces replacesBit_or_twoPow

/-- Settles O55: `bclr` replaces the indexed bit by 0. -/
theorem bclrClearsABit : Obligations.BclrClearsABit := modifyBit_replaces replacesBit_andNot_twoPow

/-- Settles O56: `btgl` replaces the indexed bit by its complement. -/
theorem btglInvertsABit : Obligations.BtglInvertsABit := modifyBit_replaces replacesBit_xor_twoPow

/-! `xbit`. -/

theorem len_xbitForm (f : XbitForm) : f.len = 3 := by cases f <;> rfl

/-- The word that `xbit` writes on v3+: the bit, with zeros above it. -/
def bitWord (b : Bool) : Word := (BitVec.ofBool b).setWidth 32

theorem bitWord_eq_ite (b : Bool) : bitWord b = if b then 1#32 else 0#32 := by cases b <;> rfl

theorem bitWord_beq_zero (b : Bool) : (bitWord b == 0) = !b := by cases b <;> rfl

/-- A bitfield of size 1 is the bit at its index (R162, R180). -/
theorem bitfield_sizeOne (v desc : Word) (h : desc.toNat < 32) : bitfield v desc = bitWord (v.getLsbD desc.toNat) := by
  apply BitVec.eq_of_getLsbD_eq
  intro j hj
  rw [getLsbD_bitfield v desc j hj, Nat.div_eq_of_lt h, Nat.mod_eq_of_lt h, bitWord, BitVec.getLsbD_setWidth]
  cases j with
  | zero => simp
  | succ i => simp

section
variable (f : XbitForm) (s : State)

/-- Where the bit may be accessed, the version alone decides what `xbit` does (R180). -/
theorem exec_xbit_of_free (hfree : f.readsFlags = true → FlagsBitFree s ((f.src2 s).toNat % 32)) :
    let b := (f.src1 s).getLsbD ((f.src2 s).toNat % 32)
    exec (.xbit f) s = if s.isV0 then xbitV0 f b s else xbitV3plus f b s := by
  intro b
  change execXbit f s = _
  simp only [execXbit, bitIndex_eq]
  cases hflags : f.readsFlags with
  | true => exact onFlagsBit_of_free _ _ _ (hfree hflags)
  | false => rfl

theorem exec_xbit_of_v0 (hfree : f.readsFlags = true → FlagsBitFree s ((f.src2 s).toNat % 32)) (h : s.isV0 = true) :
    let b := (f.src1 s).getLsbD ((f.src2 s).toNat % 32)
    exec (.xbit f) s = .next ((s.setReg f.dst (putBit 0 b (s.reg f.dst))).advance 3) := by
  rw [exec_xbit_of_free f s hfree, if_pos h, xbitV0, State.done_eq, len_xbitForm]

theorem exec_xbit_of_v3plus (hfree : f.readsFlags = true → FlagsBitFree s ((f.src2 s).toNat % 32))
    (h : s.isV0 = false) :
    let b := (f.src1 s).getLsbD ((f.src2 s).toNat % 32)
    exec (.xbit f) s =
      .next (((s.setReg f.dst (bitWord b)).setFlags (setZ (!b) (setS false s.flags))).advance 3) := by
  intro b
  rw [exec_xbit_of_free f s hfree, if_neg (by simp [h]), xbitV3plus, State.done_eq, len_xbitForm, bitWord]

end

/-- On v3+ `extr` with an immediate below 32, which describes a field of size 1, does what `xbit` does with an
immediate that has the same low five bits (R180). -/
theorem exec_extr_sizeOne (s : State) (r1 r2 : Reg) (imm : Byte) (h : s.isV0 = false) :
    exec (.extr (.r1r2i8 r1 r2 (imm &&& 0x1f#8))) s = exec (.xbit (.r1r2i8 r1 r2 imm)) s := by
  have hindex : (extend .zero (imm &&& 0x1f#8)).toNat = (extend .truncated imm).toNat % 32 := by
    rw [extend, extend, BitVec.toNat_setWidth_of_le (by decide), BitVec.toNat_setWidth_of_le (by decide),
      BitVec.toNat_and]
    exact Nat.and_two_pow_sub_one_eq_mod imm.toNat 5
  have hfield : bitfield (s.reg r2) (extend .zero (imm &&& 0x1f#8)) =
      bitWord ((s.reg r2).getLsbD ((extend .truncated imm).toNat % 32)) := by
    rw [← hindex]
    exact bitfield_sizeOne _ _ (hindex ▸ Nat.mod_lt _ (by decide))
  have hnoFlags : (XbitForm.r1r2i8 r1 r2 imm).readsFlags = true →
      FlagsBitFree s (((XbitForm.r1r2i8 r1 r2 imm).src2 s).toNat % 32) := nofun
  rw [exec_extr_of_v3plus _ s h, exec_xbit_of_v3plus _ s hnoFlags h]
  simp only [FieldForm.toAlu, AluForm.src1, AluForm.src1Reg, AluForm.src2, AluForm.dst, AluForm.len, XbitForm.src1,
    XbitForm.src2, XbitForm.dst, hfield, bitWord_beq_zero]

/-- Settles O53: on v3+ `xbit` writes the bit as a word, `s` as 0 and `z` as the bit's complement, on v0 the bit in
place of bit 0; with an immediate on a register its v3+ outcome is that of `extr` on a field of size 1. -/
theorem xbitExtractsABit : Obligations.XbitExtractsABit := by
  intro f s n b hfree
  refine ⟨fun hv3plus => ?v3plus, fun hv0 => ?v0⟩
  case v3plus =>
    refine ⟨_, exec_xbit_of_v3plus f s hfree hv3plus, (OnlyChanges.setReg s f.dst _ 3).setZ_setS _ _, ?_, ?_, ?_, ?_⟩
    · rw [State.advance_reg, State.setFlags_reg, State.reg_setReg_same, bitWord_eq_ite]
    · simp
    · simp [b, n]
    · rintro r1 r2 imm rfl
      rw [exec_extr_sizeOne s r1 r2 imm hv3plus, exec_xbit_of_v3plus _ s hfree hv3plus]
  case v0 =>
    refine ⟨_, exec_xbit_of_v0 f s hfree hv0, OnlyChanges.setReg s f.dst _ 3, ?_, fun j hj => ?_⟩
    · rw [State.advance_reg, State.reg_setReg_same, getLsbD_putBit _ _ _ _ (by decide), if_pos rfl]
    · rw [State.advance_reg, State.reg_setReg_same, getLsbD_putBit _ _ _ _ (by decide), if_neg hj]

end Sys2Proof.Machine
end

section
/-! PROOF. Byte 0 of each opcode, what decoding answers by the outcome of each of its tests, the fields of an encoding
read back and written again, and with them the round trips of the encoding (R70 to R80). -/

namespace Sys2Proof

/-! Byte 0 (R71): an opcode below `0x30`, or below `0xf0` when unsized, leaves bits 3:0 to the subopcode. -/

/-- Byte 0 of the opcode, with `n` in bits 3:0 where those hold the subopcode. -/
def Opcode.byte (op : Opcode) (n : BitVec 4) : Byte :=
  match op with
  | .sized sz .x10 => sizedByte sz (0b01#2 ++ n)
  | .sized sz .x20 => sizedByte sz (0b10#2 ++ n)
  | .sized sz .x30 => sizedByte sz 0x30#6
  | .sized sz .x31 => sizedByte sz 0x31#6
  | .sized sz .x36 => sizedByte sz 0x36#6
  | .sized sz .x37 => sizedByte sz 0x37#6
  | .sized sz .x38 => sizedByte sz 0x38#6
  | .sized sz .x39 => sizedByte sz 0x39#6
  | .sized sz .x3b => sizedByte sz 0x3b#6
  | .sized sz .x3c => sizedByte sz 0x3c#6
  | .sized sz .x3d => sizedByte sz 0x3d#6
  | .unsized .xc0 => pack 0xc#4 n
  | .unsized .xe0 => pack 0xe#4 n
  | .unsized .xf0 => 0xf0#8
  | .unsized .xf1 => 0xf1#8
  | .unsized .xf2 => 0xf2#8
  | .unsized .xf4 => 0xf4#8
  | .unsized .xf9 => 0xf9#8
  | .unsized .xfa => 0xfa#8
  | .unsized .xfd => 0xfd#8
  | .unsized .xfe => 0xfe#8
  | .unsized .xff => 0xff#8

@[simp] theorem loNibble_sizedByte (sz : Size) (hi : BitVec 2) (n : BitVec 4) :
    loNibble (sizedByte sz (hi ++ n)) = n := by
  cases sz <;> revert hi n <;> decide +kernel

@[simp] theorem opcodeOf_byte (op : Opcode) (n : BitVec 4) : opcodeOf (op.byte n) = some op := by
  cases op with
  | sized sz op => cases op <;> cases sz <;> revert n <;> decide
  | unsized op => cases op <;> revert n <;> decide

/-- Byte 0 is fixed by its opcode and its low four bits. -/
theorem byte_of_opcodeOf {b0 : Byte} {op : Opcode} (h : opcodeOf b0 = some op) : op.byte (loNibble b0) = b0 := by
  have hall : ∀ b : Byte, (opcodeOf b).all (fun op => op.byte (loNibble b) == b) = true := by decide +kernel
  simpa [h] using hall b0

/-! What decoding answers, by the outcome of each test of R80. -/

/-- The fields of an instruction's first byte and the bytes after it; a byte that is not there reads 0. -/
def fieldsOf (b0 : Byte) (rest : List Byte) : Fields := ⟨b0, rest.getD 0 0, rest.getD 1 0, rest.getD 2 0⟩

theorem decode_of_no_opcode (v : FalconVersion) {b0 : Byte} (rest : List Byte) (hop : opcodeOf b0 = none) :
    decode v (b0 :: rest) = .error .notAnInstruction := by
  simp only [decode, hop]

section
variable (v : FalconVersion) {b0 : Byte} {rest : List Byte} {op : Opcode} (hop : opcodeOf b0 = some op)
include hop

theorem decode_of_short (hlen : rest.length + 1 < op.length) :
    decode v (b0 :: rest) = .error .runsPastCodeImage := by
  simp only [decode, hop, if_pos hlen]

variable (hlen : ¬ rest.length + 1 < op.length)
include hlen

theorem decode_of_unusedBits (hun : unusedBits op (fieldsOf b0 rest) = true) :
    decode v (b0 :: rest) = .error .unusedBitsSet := by
  simp only [decode, hop, if_neg hlen]
  exact if_pos hun

variable (hun : unusedBits op (fieldsOf b0 rest) = false)
include hun

theorem decode_of_no_cell (hcell : cellOf v op (fieldsOf b0 rest) = none) :
    decode v (b0 :: rest) = .error .notAnInstruction := by
  unfold fieldsOf at hun hcell
  simp only [decode, hop, if_neg hlen, hun, hcell, Bool.false_eq_true, if_false]

theorem decode_of_cell {i : Instr} (hcell : cellOf v op (fieldsOf b0 rest) = some i) :
    decode v (b0 :: rest) = checkPresence v i := by
  unfold fieldsOf at hun hcell
  simp only [decode, hop, if_neg hlen, hun, hcell, Bool.false_eq_true, if_false]

end

/-- A successful decoding passed every test of R80. -/
theorem decode_eq_ok_iff (v : FalconVersion) (bs : List Byte) (i : Instr) :
    decode v bs = .ok i ↔
      ∃ b0 rest op, bs = b0 :: rest ∧ opcodeOf b0 = some op ∧ op.length ≤ bs.length ∧
        unusedBits op (fieldsOf b0 rest) = false ∧ cellOf v op (fieldsOf b0 rest) = some i ∧ i.wellFormed v = true := by
  refine ⟨decode_ok v bs i, ?_⟩
  rintro ⟨b0, rest, op, rfl, hop, hlen, hun, hcell, hw⟩
  rw [decode_of_cell v hop (by simpa using hlen) hun hcell, checkPresence, if_pos hw]

/-- Bytes decode to what the cell of their opcode and fields holds, where the version has it. -/
theorem decode_byte_cons {v : FalconVersion} {i : Instr} (op : Opcode) (n : BitVec 4) (rest : List Byte)
    (hw : i.wellFormed v = true) (hcell : cellOf v op (fieldsOf (op.byte n) rest) = some i)
    (hlen : op.length ≤ rest.length + 1 := by simp [Opcode.length, halfBytes])
    (hun : unusedBits op (fieldsOf (op.byte n) rest) = false := by simp [unusedBits, fieldsOf]) :
    decode v (op.byte n :: rest) = .ok i := by
  rw [decode_of_cell v (opcodeOf_byte op n) (Nat.not_lt.mpr hlen) hun hcell, checkPresence, if_pos hw]

/-! The fields of written bytes (R72 to R74). -/

section
variable (b0 b1 b2 b3 : Byte) (r1 r2 r3 : Reg) (n : BitVec 4)

@[simp] theorem r1_packRegs : Fields.r1 ⟨b0, packRegs r2 r1, b2, b3⟩ = r1 := by simp [Fields.r1, packRegs]
@[simp] theorem r2_packRegs : Fields.r2 ⟨b0, packRegs r2 r1, b2, b3⟩ = r2 := by simp [Fields.r2, packRegs]
@[simp] theorem r2_pack : Fields.r2 ⟨b0, pack (nibble r2) n, b2, b3⟩ = r2 := by simp [Fields.r2]
@[simp] theorem r3_pack : Fields.r3 ⟨b0, b1, pack (nibble r3) n, b3⟩ = r3 := by simp [Fields.r3]
@[simp] theorem i8_mk : Fields.i8 ⟨b0, b1, b2, b3⟩ = b2 := rfl
@[simp] theorem i16_halfBytes (imm : Half) :
    Fields.i16 ⟨b0, b1, imm.extractLsb' 0 8, imm.extractLsb' 8 8⟩ = imm := joinHalf imm
@[simp] theorem o1_sizedByte (sz : Size) (hi : BitVec 2) :
    Fields.o1 ⟨sizedByte sz (hi ++ n), b1, b2, b3⟩ = n.toNat := by
  simp [Fields.o1]
@[simp] theorem o1_pack (hi : BitVec 4) : Fields.o1 ⟨pack hi n, b1, b2, b3⟩ = n.toNat := by simp [Fields.o1]
@[simp] theorem o2_pack (hi : BitVec 4) : Fields.o2 ⟨b0, pack hi n, b2, b3⟩ = n.toNat := by simp [Fields.o2]
@[simp] theorem o3_pack (hi : BitVec 4) : Fields.o3 ⟨b0, b1, pack hi n, b3⟩ = n.toNat := by simp [Fields.o3]
@[simp] theorem ol_mk : Fields.ol ⟨b0, b1, b2, b3⟩ = (b1.extractLsb' 0 6).toNat := rfl

end

/-! Each family of encodings decodes to what its cell of the opcode map holds (R63, R75). -/

section
variable {v : FalconVersion} {sz : Size} {sub : BitVec 4} {i : Instr} (rest : List Byte) (hw : i.wellFormed v = true)
include hw

theorem decode_encodeCmp {f : CmpForm} (hcell : compareCell sz sub.toNat f = some i) :
    decode v (encodeCmp sz sub f ++ rest) = .ok i := by
  cases f with
  | r2i8 => exact decode_byte_cons (.sized sz .x30) 0 _ hw (by simpa [cellOf, sizedCell, fieldsOf] using hcell)
  | r2i16 =>
    exact decode_byte_cons (.sized sz .x31) 0 _ hw (by simpa [cellOf, sizedCell, fieldsOf, halfBytes] using hcell)
  | r2r1 => exact decode_byte_cons (.sized sz .x38) 0 _ hw (by simpa [cellOf, sizedCell, fieldsOf] using hcell)

theorem decode_encodeSizedAlu_of_addSubCell {f : AluForm} (hcell : addSubCell sz sub.toNat f = some i) :
    decode v (encodeSizedAlu sz sub f ++ rest) = .ok i := by
  cases f with
  | r1r2i8 =>
    exact decode_byte_cons (.sized sz .x10) sub _ hw
      (by simp [cellOf, sizedCell, fieldsOf, Opcode.byte, hcell])
  | r1r2i16 =>
    exact decode_byte_cons (.sized sz .x20) sub _ hw
      (by simp [cellOf, sizedCell, fieldsOf, halfBytes, Opcode.byte, hcell])
  | r2r2i8 => exact decode_byte_cons (.sized sz .x36) 0 _ hw (by simp [cellOf, sizedCell, fieldsOf, hcell])
  | r2r2i16 =>
    exact decode_byte_cons (.sized sz .x37) 0 _ hw (by simp [cellOf, sizedCell, fieldsOf, halfBytes, hcell])
  | r2r2r1 => exact decode_byte_cons (.sized sz .x3b) 0 _ hw (by simp [cellOf, sizedCell, fieldsOf, hcell])
  | r3r2r1 => exact decode_byte_cons (.sized sz .x3c) 0 _ hw (by simp [cellOf, sizedCell, fieldsOf, hcell])

theorem decode_encodeSizedAlu_of_shiftCell {f : ShiftForm} (hcell : shiftCell sz sub.toNat f = some i)
    (hskip : ∀ g, addSubCell sz sub.toNat g = none) : decode v (encodeSizedAlu sz sub f.toAlu ++ rest) = .ok i := by
  cases f with
  | r1r2i8 =>
    exact decode_byte_cons (.sized sz .x10) sub _ hw
      (by simp [cellOf, sizedCell, fieldsOf, Opcode.byte, hcell, hskip])
  | r2r2i8 => exact decode_byte_cons (.sized sz .x36) 0 _ hw (by simp [cellOf, sizedCell, fieldsOf, hcell, hskip])
  | r2r2r1 => exact decode_byte_cons (.sized sz .x3b) 0 _ hw (by simp [cellOf, sizedCell, fieldsOf, hcell, hskip])
  | r3r2r1 => exact decode_byte_cons (.sized sz .x3c) 0 _ hw (by simp [cellOf, sizedCell, fieldsOf, hcell, hskip])

theorem decode_encodeUnary {f : UnaryForm} (hcell : unaryCell v sz sub.toNat f = some i) :
    decode v (encodeUnary sz sub f ++ rest) = .ok i := by
  cases f with
  | r1r2 => exact decode_byte_cons (.sized sz .x39) 0 _ hw (by simp [cellOf, sizedCell, fieldsOf, hcell])
  | r2r2 => exact decode_byte_cons (.sized sz .x3d) 0 _ hw (by simp [cellOf, sizedCell, fieldsOf, hcell])

theorem decode_encodeOneReg {r2 : Reg} (hcell : oneRegCell sz sub.toNat r2 = some i)
    (hskip : ∀ g, unaryCell v sz sub.toNat g = none) : decode v (encodeOneReg sz sub r2 ++ rest) = .ok i :=
  decode_byte_cons (.sized sz .x3d) 0 _ hw (by simp [cellOf, sizedCell, fieldsOf, hcell, hskip])

theorem decode_encodeUnsizedAlu_of_mulLogicCell {f : AluForm} (hcell : mulLogicCell sub.toNat f = some i) :
    decode v (encodeUnsizedAlu sub f ++ rest) = .ok i := by
  cases f with
  | r1r2i8 =>
    exact decode_byte_cons (.unsized .xc0) sub _ hw (by simp [cellOf, unsizedCell, fieldsOf, Opcode.byte, hcell])
  | r1r2i16 =>
    exact decode_byte_cons (.unsized .xe0) sub _ hw
      (by simp [cellOf, unsizedCell, fieldsOf, halfBytes, Opcode.byte, hcell])
  | r2r2i8 => exact decode_byte_cons (.unsized .xf0) 0 _ hw (by simp [cellOf, unsizedCell, fieldsOf, hcell])
  | r2r2i16 =>
    exact decode_byte_cons (.unsized .xf1) 0 _ hw (by simp [cellOf, unsizedCell, fieldsOf, halfBytes, hcell])
  | r2r2r1 => exact decode_byte_cons (.unsized .xfd) 0 _ hw (by simp [cellOf, unsizedCell, fieldsOf, hcell])
  | r3r2r1 => exact decode_byte_cons (.unsized .xff) 0 _ hw (by simp [cellOf, unsizedCell, fieldsOf, hcell])

theorem decode_encodeUnsizedAlu_of_sextCell {f : ShiftForm} (hcell : sextCell sub.toNat f = some i)
    (hskip : ∀ g, mulLogicCell sub.toNat g = none) : decode v (encodeUnsizedAlu sub f.toAlu ++ rest) = .ok i := by
  cases f with
  | r1r2i8 =>
    exact decode_byte_cons (.unsized .xc0) sub _ hw (by simp [cellOf, unsizedCell, fieldsOf, Opcode.byte, hcell, hskip])
  | r2r2i8 => exact decode_byte_cons (.unsized .xf0) 0 _ hw (by simp [cellOf, unsizedCell, fieldsOf, hcell, hskip])
  | r2r2r1 => exact decode_byte_cons (.unsized .xfd) 0 _ hw (by simp [cellOf, unsizedCell, fieldsOf, hcell, hskip])
  | r3r2r1 => exact decode_byte_cons (.unsized .xff) 0 _ hw (by simp [cellOf, unsizedCell, fieldsOf, hcell, hskip])

theorem decode_encodeUnsizedAlu_of_fieldCell {f : FieldForm} (hcell : fieldCell sub.toNat f = some i)
    (hmul : ∀ g, mulLogicCell sub.toNat g = none) (hsext : ∀ g, sextCell sub.toNat g = none) :
    decode v (encodeUnsizedAlu sub f.toAlu ++ rest) = .ok i := by
  cases f with
  | r1r2i8 =>
    exact decode_byte_cons (.unsized .xc0) sub _ hw
      (by simp [cellOf, unsizedCell, fieldsOf, Opcode.byte, hcell, hmul, hsext])
  | r1r2i16 =>
    exact decode_byte_cons (.unsized .xe0) sub _ hw
      (by simp [cellOf, unsizedCell, fieldsOf, halfBytes, Opcode.byte, hcell, hmul])
  | r3r2r1 =>
    exact decode_byte_cons (.unsized .xff) 0 _ hw (by simp [cellOf, unsizedCell, fieldsOf, hcell, hmul, hsext])

theorem decode_encodeIns {f : InsForm} (hcell : insCell 0xb f = some i) :
    decode v (encodeUnsizedAlu 0xb#4 f.toAlu ++ rest) = .ok i := by
  cases f with
  | r1r2i8 =>
    exact decode_byte_cons (.unsized .xc0) 0xb#4 _ hw
      (by simp [cellOf, unsizedCell, fieldsOf, Opcode.byte, mulLogicCell, sextCell, fieldCell, xbitCell, hcell])
  | r1r2i16 =>
    exact decode_byte_cons (.unsized .xe0) 0xb#4 _ hw
      (by simp [cellOf, unsizedCell, fieldsOf, halfBytes, Opcode.byte, mulLogicCell, fieldCell, hcell])

theorem decode_encodeImm {f : ImmForm} (hcell : immCell sub.toNat f = some i)
    (hmul : ∀ g, mulLogicCell sub.toNat g = none) (hsext : ∀ g, sextCell sub.toNat g = none) :
    decode v (encodeImm sub f ++ rest) = .ok i := by
  cases f with
  | r2i8 => exact decode_byte_cons (.unsized .xf0) 0 _ hw (by simp [cellOf, unsizedCell, fieldsOf, hcell, hmul, hsext])
  | r2i16 =>
    exact decode_byte_cons (.unsized .xf1) 0 _ hw (by simp [cellOf, unsizedCell, fieldsOf, halfBytes, hcell, hmul])

/-- `wide` is the subopcode of the immediate `$flags` form, a whole byte whose bits 7:6 are 0 (R72). -/
theorem decode_encodeBit {wide : Byte} {f : BitForm} (hcell : bitCell 0x9 sub.toNat f = some i)
    (hwide : bitCell 0x31 (wide.extractLsb' 0 6).toNat f = some i) (hzero : wide.extractLsb' 6 2 = 0#2)
    (hmul : ∀ g, mulLogicCell sub.toNat g = none) (hsext : ∀ g, sextCell sub.toNat g = none)
    (himm : ∀ g, immCell sub.toNat g = none) : decode v (encodeBit sub wide f ++ rest) = .ok i := by
  cases f with
  | r2i8 =>
    exact decode_byte_cons (.unsized .xf0) 0 _ hw
      (by simp [cellOf, unsizedCell, fieldsOf, hcell, hmul, hsext, himm])
  | r2r1 => exact decode_byte_cons (.unsized .xfd) 0 _ hw (by simp [cellOf, unsizedCell, fieldsOf, hcell, hmul, hsext])
  | flagsi8 =>
    exact decode_byte_cons (.unsized .xf4) 0 _ hw (by simpa [cellOf, unsizedCell, fieldsOf] using hwide)
      (hun := by simp [unusedBits, fieldsOf, hzero])
  | flagsr2 => exact decode_byte_cons (.unsized .xf9) 0 _ hw (by simp [cellOf, unsizedCell, fieldsOf, hcell])

end

theorem decode_encodeXbit (v : FalconVersion) (f : XbitForm) (rest : List Byte) :
    decode v (encodeXbit f ++ rest) = .ok (.xbit f) := by
  cases f with
  | r1r2i8 =>
    exact decode_byte_cons (.unsized .xc0) 0x8#4 _ rfl
      (by simp [cellOf, unsizedCell, fieldsOf, Opcode.byte, mulLogicCell, sextCell, fieldCell, xbitCell])
  | r3r2r1 =>
    exact decode_byte_cons (.unsized .xff) 0 _ rfl
      (by simp [cellOf, unsizedCell, fieldsOf, mulLogicCell, sextCell, fieldCell, xbitCell])
  | r2flagsi8 =>
    exact decode_byte_cons (.unsized .xf0) 0 _ rfl
      (by simp [cellOf, unsizedCell, fieldsOf, mulLogicCell, sextCell, immCell, bitCell, xbitCell])
  | r1flagsr2 =>
    exact decode_byte_cons (.unsized .xfe) 0 _ rfl (by simp [cellOf, unsizedCell, fieldsOf, xbitCell])

theorem decode_encodeSetp (v : FalconVersion) (f : SetpForm) (rest : List Byte) :
    decode v (encodeSetp f ++ rest) = .ok (.setp f) := by
  cases f with
  | r2i8 => exact decode_byte_cons (.unsized .xf2) 0 _ rfl (by simp [cellOf, unsizedCell, fieldsOf, setpCell])
  | r2r1 => exact decode_byte_cons (.unsized .xfa) 0 _ rfl (by simp [cellOf, unsizedCell, fieldsOf, setpCell])

/-- Subopcode 2 of the unary operations holds the move that the version has (R66). -/
theorem unaryCell_move {v : FalconVersion} {sz : Size} {f : UnaryForm} {i : Instr}
    (hi : i = .movf sz f ∨ i = .movReg sz f) (hw : i.wellFormed v = true) : unaryCell v sz 2 f = some i := by
  rcases hi with rfl | rfl
  · have hv : v.isV0 = true := hw
    simp [unaryCell, hv]
  · have hv : v.isV0 = false := by simpa [Instr.wellFormed, Instr.presence, Presence.admits] using hw
    simp [unaryCell, hv]

/-- Settles O1: by the family of the instruction's encoding, whose cell of the opcode map holds the instruction. -/
theorem decodeOfEncodeIsTheInstruction : Obligations.DecodeOfEncodeIsTheInstruction := by
  intro v i rest hw
  cases i with
  | cmpu _ _ | cmps _ _ | cmp _ _ => exact decode_encodeCmp rest hw rfl
  | add _ _ | adc _ _ | sub _ _ | sbb _ _ => exact decode_encodeSizedAlu_of_addSubCell rest hw rfl
  | shl _ _ | shr _ _ | sar _ _ | shlc _ _ | shrc _ _ =>
    exact decode_encodeSizedAlu_of_shiftCell rest hw rfl fun _ => rfl
  | not _ _ | neg _ _ | hswap _ _ => exact decode_encodeUnary rest hw rfl
  | movf sz f => exact decode_encodeUnary rest hw (unaryCell_move (.inl rfl) hw)
  | movReg sz f => exact decode_encodeUnary rest hw (unaryCell_move (.inr rfl) hw)
  | clear _ _ | setf _ _ => exact decode_encodeOneReg rest hw rfl fun _ => rfl
  | movImm _ | sethi _ => exact decode_encodeImm rest hw rfl (fun _ => rfl) fun _ => rfl
  | mulu _ | muls _ | and _ | or _ | xor _ => exact decode_encodeUnsizedAlu_of_mulLogicCell rest hw rfl
  | sext _ => exact decode_encodeUnsizedAlu_of_sextCell rest hw rfl fun _ => rfl
  | extr _ | extrs _ | div _ | mod _ =>
    exact decode_encodeUnsizedAlu_of_fieldCell rest hw rfl (fun _ => rfl) fun _ => rfl
  | ins _ => exact decode_encodeIns rest hw rfl
  | xbit f => exact decode_encodeXbit v f rest
  | bset _ | bclr _ | btgl _ =>
    exact decode_encodeBit rest hw rfl rfl rfl (fun _ => rfl) (fun _ => rfl) fun _ => rfl
  | setp f => exact decode_encodeSetp v f rest

end Sys2Proof
end

section
/-! PROOF. What stands in each cell of the opcode map is encoded in the family of the cell, with the cell's subopcode,
and with it that bytes that decode are the encoding of what they decode to (R63, R75, R77). -/

namespace Sys2Proof

/-! The cells, read backwards: the instruction in a cell is encoded with the subopcode of the cell. -/

section
variable {v : FalconVersion} {sz : Size} {n : Nat} {i : Instr}

theorem encode_of_compareCell {f : CmpForm} (h : compareCell sz n f = some i) :
    encode i = encodeCmp sz (BitVec.ofNat 4 n) f := by
  unfold compareCell at h
  split at h <;> cases h <;> rfl

theorem encode_of_addSubCell {f : AluForm} (h : addSubCell sz n f = some i) :
    encode i = encodeSizedAlu sz (BitVec.ofNat 4 n) f := by
  unfold addSubCell at h
  split at h <;> cases h <;> rfl

theorem encode_of_shiftCell {f : ShiftForm} (h : shiftCell sz n f = some i) :
    encode i = encodeSizedAlu sz (BitVec.ofNat 4 n) f.toAlu := by
  unfold shiftCell at h
  split at h <;> cases h <;> rfl

theorem encode_of_unaryCell {f : UnaryForm} (h : unaryCell v sz n f = some i) :
    encode i = encodeUnary sz (BitVec.ofNat 4 n) f := by
  unfold unaryCell at h
  split at h
  case h_3 =>
    generalize v.isV0 = b at h
    cases b <;> cases h <;> rfl
  all_goals cases h <;> rfl

theorem encode_of_oneRegCell {r2 : Reg} (h : oneRegCell sz n r2 = some i) :
    encode i = encodeOneReg sz (BitVec.ofNat 4 n) r2 := by
  unfold oneRegCell at h
  split at h <;> cases h <;> rfl

theorem encode_of_mulLogicCell {f : AluForm} (h : mulLogicCell n f = some i) :
    encode i = encodeUnsizedAlu (BitVec.ofNat 4 n) f := by
  unfold mulLogicCell at h
  split at h <;> cases h <;> rfl

theorem encode_of_sextCell {f : ShiftForm} (h : sextCell n f = some i) :
    encode i = encodeUnsizedAlu (BitVec.ofNat 4 n) f.toAlu := by
  unfold sextCell at h
  split at h <;> cases h
  rfl

theorem encode_of_fieldCell {f : FieldForm} (h : fieldCell n f = some i) :
    encode i = encodeUnsizedAlu (BitVec.ofNat 4 n) f.toAlu := by
  unfold fieldCell at h
  split at h <;> cases h <;> rfl

theorem encode_of_insCell {f : InsForm} (h : insCell n f = some i) :
    encode i = encodeUnsizedAlu (BitVec.ofNat 4 n) f.toAlu := by
  unfold insCell at h
  split at h <;> cases h
  rfl

theorem encode_of_immCell {f : ImmForm} (h : immCell n f = some i) :
    encode i = encodeImm (BitVec.ofNat 4 n) f := by
  unfold immCell at h
  split at h <;> cases h <;> rfl

theorem encode_of_setpCell {f : SetpForm} (h : setpCell n f = some i) : n = 8 ∧ encode i = encodeSetp f := by
  unfold setpCell at h
  split at h <;> cases h
  exact ⟨rfl, rfl⟩

theorem encode_of_xbitCell {own : Nat} {f : XbitForm} (h : xbitCell own n f = some i) :
    n = own ∧ encode i = encodeXbit f := by
  unfold xbitCell at h
  split at h <;> cases h
  exact ⟨‹_›, rfl⟩

theorem bitCell_eq_some {first : Nat} {f : BitForm} (h : bitCell first n f = some i) :
    (n = first ∧ i = .bset f) ∨ (n = first + 1 ∧ i = .bclr f) ∨ (n = first + 2 ∧ i = .btgl f) := by
  unfold bitCell at h
  by_cases hset : n = first
  · simpa [hset, eq_comm] using h
  by_cases hclr : n = first + 1
  · simpa [hclr, eq_comm] using h
  by_cases htgl : n = first + 2
  · simpa [htgl, eq_comm] using h
  simp [hset, hclr, htgl] at h

/-- With a four-bit subopcode; `wide` is in the bytes of the immediate `$flags` form alone (R72). -/
theorem encode_of_bitCell {f : BitForm} (h : bitCell 0x9 n f = some i) :
    ∃ wide, encode i = encodeBit (BitVec.ofNat 4 n) wide f := by
  obtain ⟨rfl, rfl⟩ | ⟨rfl, rfl⟩ | ⟨rfl, rfl⟩ := bitCell_eq_some h <;> exact ⟨_, rfl⟩

/-- With a six-bit subopcode, which the immediate `$flags` form has (R72). -/
theorem encode_of_bitCell_wide {f : BitForm} (h : bitCell 0x31 n f = some i) :
    ∃ sub, encode i = encodeBit sub (BitVec.ofNat 8 n) f := by
  obtain ⟨rfl, rfl⟩ | ⟨rfl, rfl⟩ | ⟨rfl, rfl⟩ := bitCell_eq_some h <;> exact ⟨_, rfl⟩

end

/-! The fields of an instruction, written again (R72 to R74). -/

section
variable (x : Fields)

@[simp] theorem ofNat_o1 : BitVec.ofNat 4 x.o1 = loNibble x.b0 := by simp [Fields.o1]
@[simp] theorem ofNat_o2 : BitVec.ofNat 4 x.o2 = loNibble x.b1 := by simp [Fields.o2]
@[simp] theorem ofNat_o3 : BitVec.ofNat 4 x.o3 = loNibble x.b2 := by simp [Fields.o3]
@[simp] theorem packRegs_fields : packRegs x.r2 x.r1 = x.b1 := pack_nibbles x.b1
@[simp] theorem pack_r2 : pack (nibble x.r2) (loNibble x.b1) = x.b1 := pack_nibbles x.b1
@[simp] theorem pack_r3 : pack (nibble x.r3) (loNibble x.b2) = x.b2 := pack_nibbles x.b2
@[simp] theorem halfBytes_i16 : halfBytes x.i16 = [x.b2, x.b3] := by
  have hlow : (x.b3 ++ x.b2 : Half).extractLsb' 0 8 = x.b2 := BitVec.extractLsb'_append_eq_right
  have hhigh : (x.b3 ++ x.b2 : Half).extractLsb' 8 8 = x.b3 := BitVec.extractLsb'_append_eq_left
  rw [halfBytes, Fields.i16, hlow, hhigh]

theorem pack_zero_of_hiNibble {b : Byte} (h : hiNibble b = 0#4) : pack 0#4 (loNibble b) = b := by
  rw [← h, pack_nibbles]

theorem ofNat_ol_of_topBits (h : x.b1.extractLsb' 6 2 = 0#2) : BitVec.ofNat 8 x.ol = x.b1 := by
  have hall : ∀ b : Byte, b.extractLsb' 6 2 = 0#2 → BitVec.ofNat 8 (b.extractLsb' 0 6).toNat = b := by decide +kernel
  exact hall x.b1 h

/-- The first `n` bytes of an instruction, from its fields. -/
def Fields.bytes (n : Nat) : List Byte := [x.b0, x.b1, x.b2, x.b3].take n

end

theorem of_orElse_eq_some {a b : Option Instr} {i : Instr} {p : Prop} (h : (a <|> b) = some i) (ha : a = some i → p)
    (hb : b = some i → p) : p := by
  cases a with
  | none => exact hb h
  | some j => exact ha h

/-- An instruction in the cell that the fields select is encoded in the bytes they were read from. -/
theorem encode_of_sizedCell {v : FalconVersion} {sz : Size} {op : SizedOpcode} {x : Fields} {i : Instr}
    (hop : opcodeOf x.b0 = some (.sized sz op)) (hun : unusedBits (.sized sz op) x = false)
    (hcell : sizedCell v sz op x = some i) : encode i = x.bytes (Opcode.sized sz op).length := by
  have hb0 := byte_of_opcodeOf hop
  cases op with
  | x10 =>
    have hbytes : encodeSizedAlu sz (BitVec.ofNat 4 x.o1) (.r1r2i8 x.r1 x.r2 x.i8) = x.bytes 3 := by
      simpa [encodeSizedAlu, Fields.bytes, Opcode.byte, Fields.i8] using hb0
    exact of_orElse_eq_some hcell (fun h => (encode_of_addSubCell h).trans hbytes)
      fun h => (encode_of_shiftCell h).trans hbytes
  | x20 =>
    rw [encode_of_addSubCell hcell]
    simpa [encodeSizedAlu, Fields.bytes, Opcode.length, Opcode.byte] using hb0
  | x30 =>
    rw [encode_of_compareCell hcell]
    simpa [encodeCmp, Fields.bytes, Opcode.length, Opcode.byte, Fields.i8] using hb0
  | x31 =>
    rw [encode_of_compareCell hcell]
    simpa [encodeCmp, Fields.bytes, Opcode.length, Opcode.byte] using hb0
  | x36 =>
    have hbytes : encodeSizedAlu sz (BitVec.ofNat 4 x.o2) (.r2r2i8 x.r2 x.i8) = x.bytes 3 := by
      simpa [encodeSizedAlu, Fields.bytes, Opcode.byte, Fields.i8] using hb0
    exact of_orElse_eq_some hcell (fun h => (encode_of_addSubCell h).trans hbytes)
      fun h => (encode_of_shiftCell h).trans hbytes
  | x37 =>
    rw [encode_of_addSubCell hcell]
    simpa [encodeSizedAlu, Fields.bytes, Opcode.length, Opcode.byte] using hb0
  | x38 =>
    have hb2 : pack 0#4 (loNibble x.b2) = x.b2 := pack_zero_of_hiNibble (by simpa [unusedBits] using hun)
    rw [encode_of_compareCell hcell]
    simpa [encodeCmp, Fields.bytes, Opcode.length, Opcode.byte, hb2] using hb0
  | x39 =>
    have hb2 : pack 0#4 (loNibble x.b2) = x.b2 := pack_zero_of_hiNibble (by simpa [unusedBits] using hun)
    rw [encode_of_unaryCell hcell]
    simpa [encodeUnary, Fields.bytes, Opcode.length, Opcode.byte, hb2] using hb0
  | x3b =>
    have hb2 : pack 0#4 (loNibble x.b2) = x.b2 := pack_zero_of_hiNibble (by simpa [unusedBits] using hun)
    have hbytes : encodeSizedAlu sz (BitVec.ofNat 4 x.o3) (.r2r2r1 x.r2 x.r1) = x.bytes 3 := by
      simpa [encodeSizedAlu, Fields.bytes, Opcode.byte, hb2] using hb0
    exact of_orElse_eq_some hcell (fun h => (encode_of_addSubCell h).trans hbytes)
      fun h => (encode_of_shiftCell h).trans hbytes
  | x3c =>
    have hbytes : encodeSizedAlu sz (BitVec.ofNat 4 x.o3) (.r3r2r1 x.r3 x.r2 x.r1) = x.bytes 3 := by
      simpa [encodeSizedAlu, Fields.bytes, Opcode.byte] using hb0
    exact of_orElse_eq_some hcell (fun h => (encode_of_addSubCell h).trans hbytes)
      fun h => (encode_of_shiftCell h).trans hbytes
  | x3d =>
    have hbytes : encodeOneReg sz (BitVec.ofNat 4 x.o2) x.r2 = x.bytes 2 := by
      simpa [encodeOneReg, Fields.bytes, Opcode.byte] using hb0
    exact of_orElse_eq_some hcell (fun h => (encode_of_unaryCell h).trans hbytes)
      fun h => (encode_of_oneRegCell h).trans hbytes

theorem encode_of_unsizedCell {op : UnsizedOpcode} {x : Fields} {i : Instr}
    (hop : opcodeOf x.b0 = some (.unsized op)) (hun : unusedBits (.unsized op) x = false)
    (hcell : unsizedCell op x = some i) : encode i = x.bytes (Opcode.unsized op).length := by
  have hb0 := byte_of_opcodeOf hop
  cases op with
  | xc0 =>
    have hbytes : encodeUnsizedAlu (BitVec.ofNat 4 x.o1) (.r1r2i8 x.r1 x.r2 x.i8) = x.bytes 3 := by
      simpa [encodeUnsizedAlu, Fields.bytes, Opcode.byte, Fields.i8] using hb0
    refine of_orElse_eq_some hcell (fun h => (encode_of_mulLogicCell h).trans hbytes) fun hcell => ?_
    refine of_orElse_eq_some hcell (fun h => (encode_of_sextCell h).trans hbytes) fun hcell => ?_
    refine of_orElse_eq_some hcell (fun h => (encode_of_fieldCell h).trans hbytes) fun hcell => ?_
    refine of_orElse_eq_some hcell (fun h => ?_) fun h => (encode_of_insCell h).trans hbytes
    obtain ⟨ho1, hencode⟩ := encode_of_xbitCell h
    rw [ho1] at hbytes
    exact hencode.trans hbytes
  | xe0 =>
    have hbytes : encodeUnsizedAlu (BitVec.ofNat 4 x.o1) (.r1r2i16 x.r1 x.r2 x.i16) = x.bytes 4 := by
      simpa [encodeUnsizedAlu, Fields.bytes, Opcode.byte] using hb0
    refine of_orElse_eq_some hcell (fun h => (encode_of_mulLogicCell h).trans hbytes) fun hcell => ?_
    exact of_orElse_eq_some hcell (fun h => (encode_of_fieldCell h).trans hbytes)
      fun h => (encode_of_insCell h).trans hbytes
  | xf0 =>
    have hbytes : [0xf0#8, pack (nibble x.r2) (BitVec.ofNat 4 x.o2), x.i8] = x.bytes 3 := by
      simpa [Fields.bytes, Opcode.byte, Fields.i8] using hb0
    refine of_orElse_eq_some hcell (fun h => (encode_of_mulLogicCell h).trans hbytes) fun hcell => ?_
    refine of_orElse_eq_some hcell (fun h => (encode_of_sextCell h).trans hbytes) fun hcell => ?_
    refine of_orElse_eq_some hcell (fun h => (encode_of_immCell h).trans hbytes) fun hcell => ?_
    refine of_orElse_eq_some hcell (fun h => ?_) fun h => ?_
    · obtain ⟨_, hencode⟩ := encode_of_bitCell h
      exact hencode.trans hbytes
    · obtain ⟨ho2, hencode⟩ := encode_of_xbitCell h
      rw [ho2] at hbytes
      exact hencode.trans hbytes
  | xf1 =>
    have hbytes : 0xf1#8 :: pack (nibble x.r2) (BitVec.ofNat 4 x.o2) :: halfBytes x.i16 = x.bytes 4 := by
      simpa [Fields.bytes, Opcode.byte] using hb0
    exact of_orElse_eq_some hcell (fun h => (encode_of_mulLogicCell h).trans hbytes)
      fun h => (encode_of_immCell h).trans hbytes
  | xf2 =>
    obtain ⟨ho2, hencode⟩ := encode_of_setpCell hcell
    have hb1 : pack (nibble x.r2) 0x8#4 = x.b1 := by rw [← pack_r2 x, ← ofNat_o2, ho2]
    rw [hencode]
    simpa [encodeSetp, Fields.bytes, Opcode.length, Opcode.byte, Fields.i8, hb1] using hb0
  | xf4 =>
    obtain ⟨_, hencode⟩ := encode_of_bitCell_wide hcell
    have hb1 : BitVec.ofNat 8 x.ol = x.b1 := ofNat_ol_of_topBits x (by simpa [unusedBits] using hun)
    rw [hencode]
    simpa [encodeBit, Fields.bytes, Opcode.length, Opcode.byte, Fields.i8, hb1] using hb0
  | xf9 =>
    obtain ⟨_, hencode⟩ := encode_of_bitCell hcell
    rw [hencode]
    simpa [encodeBit, Fields.bytes, Opcode.length, Opcode.byte] using hb0
  | xfa =>
    have hb2 : pack 0#4 (loNibble x.b2) = x.b2 := pack_zero_of_hiNibble (by simpa [unusedBits] using hun)
    obtain ⟨ho3, hencode⟩ := encode_of_setpCell hcell
    rw [← ofNat_o3, ho3] at hb2
    rw [hencode]
    simpa [encodeSetp, Fields.bytes, Opcode.length, Opcode.byte, hb2] using hb0
  | xfd =>
    have hb2 : pack 0#4 (loNibble x.b2) = x.b2 := pack_zero_of_hiNibble (by simpa [unusedBits] using hun)
    have hbytes : [0xfd#8, packRegs x.r2 x.r1, pack 0 (BitVec.ofNat 4 x.o3)] = x.bytes 3 := by
      simpa [Fields.bytes, Opcode.byte, hb2] using hb0
    refine of_orElse_eq_some hcell (fun h => (encode_of_mulLogicCell h).trans hbytes) fun hcell => ?_
    refine of_orElse_eq_some hcell (fun h => (encode_of_sextCell h).trans hbytes) fun h => ?_
    obtain ⟨_, hencode⟩ := encode_of_bitCell h
    exact hencode.trans hbytes
  | xfe =>
    have hb2 : pack 0#4 (loNibble x.b2) = x.b2 := pack_zero_of_hiNibble (by simpa [unusedBits] using hun)
    obtain ⟨ho3, hencode⟩ := encode_of_xbitCell hcell
    rw [← ofNat_o3, ho3] at hb2
    rw [hencode]
    simpa [encodeXbit, Fields.bytes, Opcode.length, Opcode.byte, hb2] using hb0
  | xff =>
    have hbytes : encodeUnsizedAlu (BitVec.ofNat 4 x.o3) (.r3r2r1 x.r3 x.r2 x.r1) = x.bytes 3 := by
      simpa [encodeUnsizedAlu, Fields.bytes, Opcode.byte] using hb0
    refine of_orElse_eq_some hcell (fun h => (encode_of_mulLogicCell h).trans hbytes) fun hcell => ?_
    refine of_orElse_eq_some hcell (fun h => (encode_of_sextCell h).trans hbytes) fun hcell => ?_
    refine of_orElse_eq_some hcell (fun h => (encode_of_fieldCell h).trans hbytes) fun h => ?_
    obtain ⟨ho3, hencode⟩ := encode_of_xbitCell h
    rw [ho3] at hbytes
    exact hencode.trans hbytes

theorem encode_of_cellOf {v : FalconVersion} {op : Opcode} {x : Fields} {i : Instr} (hop : opcodeOf x.b0 = some op)
    (hun : unusedBits op x = false) (hcell : cellOf v op x = some i) : encode i = x.bytes op.length := by
  cases op with
  | sized sz op => exact encode_of_sizedCell hop hun hcell
  | unsized op => exact encode_of_unsizedCell hop hun hcell

/-! Lengths (R70, R75). -/

/-- The encoding of an instruction has its length, by the family of the encoding. -/
theorem length_encode (i : Instr) : (encode i).length = i.len ∧ 2 ≤ i.len ∧ i.len ≤ 4 := by
  cases i with
  | cmpu _ f | cmps _ f | cmp _ f => exact Laws.EncodeLength.compare _ _ f
  | add _ f | adc _ f | sub _ f | sbb _ f => exact Laws.EncodeLength.sizedAlu _ _ f
  | shl _ f | shr _ f | sar _ f | shlc _ f | shrc _ f => exact Laws.EncodeLength.sizedAlu _ _ f.toAlu
  | not _ f | neg _ f | movf _ f | movReg _ f | hswap _ f => exact Laws.EncodeLength.unary _ _ f
  | clear _ r2 | setf _ r2 => exact Laws.EncodeLength.oneReg _ _ r2
  | movImm f | sethi f => exact Laws.EncodeLength.imm _ f
  | mulu f | muls f | and f | or f | xor f => exact Laws.EncodeLength.unsizedAlu _ f
  | sext f | extr f | extrs f | ins f | div f | mod f => exact Laws.EncodeLength.unsizedAlu _ f.toAlu
  | xbit f => exact Laws.EncodeLength.xbit f
  | bset f | bclr f | btgl f => exact Laws.EncodeLength.bitOp _ _ f
  | setp f => exact Laws.EncodeLength.setp f

theorem Opcode.length_le (op : Opcode) : op.length ≤ 4 := by
  cases op with
  | sized sz op => cases op <;> simp [Opcode.length]
  | unsized op => cases op <;> decide

/-- A decoded instruction has the length of its opcode. -/
theorem len_of_cellOf {v : FalconVersion} {op : Opcode} {x : Fields} {i : Instr} (hop : opcodeOf x.b0 = some op)
    (hun : unusedBits op x = false) (hcell : cellOf v op x = some i) : i.len = op.length := by
  have hle := op.length_le
  obtain ⟨hlength, -, -⟩ := length_encode i
  rw [← hlength, encode_of_cellOf hop hun hcell]
  simpa [Fields.bytes] using hle

/-- Where they are there, the bytes that the fields were read from stand at the head. -/
theorem take_eq_bytes_fieldsOf {b0 : Byte} {rest : List Byte} {n : Nat} (hn : n ≤ 4) (hlen : n ≤ rest.length + 1) :
    (b0 :: rest).take n = (fieldsOf b0 rest).bytes n := by
  have hget (j : Nat) (hj : j < rest.length) : rest.getD j 0 = rest[j] := List.getD_eq_getElem rest 0 hj
  refine List.ext_getElem (by simp [Fields.bytes, hn, hlen]) fun k hk _ => ?_
  obtain ⟨hkn, hkrest⟩ : k < n ∧ k < rest.length + 1 := by simpa using hk
  rw [List.getElem_take]
  simp only [Fields.bytes, fieldsOf, List.getElem_take]
  obtain rfl | rfl | rfl | rfl : k = 0 ∨ k = 1 ∨ k = 2 ∨ k = 3 := by omega
  · rfl
  · exact (hget 0 (by omega)).symm
  · exact (hget 1 (by omega)).symm
  · exact (hget 2 (by omega)).symm

/-- Settles O2: what decodes stands in the cell that the fields select, and is encoded in their bytes. -/
theorem encodeOfDecodeIsTheBytes : Obligations.EncodeOfDecodeIsTheBytes := by
  intro v bs i h
  obtain ⟨b0, rest, op, rfl, hop, hlen, hun, hcell, hw⟩ := (decode_eq_ok_iff v bs i).mp h
  refine ⟨hw, ?_⟩
  rw [len_of_cellOf (x := fieldsOf b0 rest) hop hun hcell, take_eq_bytes_fieldsOf op.length_le hlen,
    encode_of_cellOf (x := fieldsOf b0 rest) hop hun hcell]

end Sys2Proof
end

section
/-! PROOF. The rows of the opcode map against the decoder: the opcode of a row, its length, its must-be-zero bits and
its subopcodes; and with them which bytes are refused and by which name (R63, R66, R77, R78, R80). -/

namespace Sys2Proof

open Machine

/-- The row of the opcode map for an opcode (R63). -/
def Opcode.row : Opcode → OpcodeRow
  | .sized _ .x10 => sizedRows[0]
  | .sized _ .x20 => sizedRows[1]
  | .sized _ .x30 => sizedRows[2]
  | .sized _ .x31 => sizedRows[3]
  | .sized _ .x36 => sizedRows[4]
  | .sized _ .x37 => sizedRows[5]
  | .sized _ .x38 => sizedRows[6]
  | .sized _ .x39 => sizedRows[7]
  | .sized _ .x3b => sizedRows[8]
  | .sized _ .x3c => sizedRows[9]
  | .sized _ .x3d => sizedRows[10]
  | .unsized .xc0 => unsizedRows[0]
  | .unsized .xe0 => unsizedRows[1]
  | .unsized .xf0 => unsizedRows[2]
  | .unsized .xf1 => unsizedRows[3]
  | .unsized .xf2 => unsizedRows[4]
  | .unsized .xf4 => unsizedRows[5]
  | .unsized .xf9 => unsizedRows[6]
  | .unsized .xfa => unsizedRows[7]
  | .unsized .xfd => unsizedRows[8]
  | .unsized .xfe => unsizedRows[9]
  | .unsized .xff => unsizedRows[10]

/-! The opcode of byte 0. -/

theorem opcodeOf_eq_none_iff (b0 : Byte) : opcodeOf b0 = none ↔ opcodeKey b0 ∉ opcodeRows.map OpcodeRow.number := by
  revert b0; decide +kernel

theorem row_eq_of_opcodeOf {b0 : Byte} {op : Opcode} (hop : opcodeOf b0 = some op) {row : OpcodeRow}
    (hmem : row ∈ opcodeRows) (hkey : row.number = opcodeKey b0) : row = op.row := by
  have hall : ∀ b : Byte, ∀ row ∈ opcodeRows, row.number = opcodeKey b → (opcodeOf b).map Opcode.row = some row := by
    decide +kernel
  simpa [hop, eq_comm] using hall b0 row hmem hkey

theorem key_mem_of_row {b0 : Byte} {row : OpcodeRow} (hmem : row ∈ opcodeRows) (hkey : row.number = opcodeKey b0) :
    opcodeKey b0 ∈ opcodeRows.map OpcodeRow.number :=
  hkey ▸ List.mem_map_of_mem hmem

theorem opcodeKey_of_sizedZero {b0 : Byte} (hsized : b0.toNat / 64 ≠ 3) (hzero : b0.toNat / 16 % 4 = 0) :
    opcodeKey b0 = 0 := by
  simp [opcodeKey, hsized, hzero]

/-! Length and must-be-zero bits. -/

theorem length_row (op : Opcode) : op.row.length = op.length := by
  cases op with
  | sized sz op => cases op <;> rfl
  | unsized op => cases op <;> rfl

theorem hiNibble_bne_zero_iff (b : Byte) : (hiNibble b != 0) = true ↔ b &&& 0xf0#8 ≠ 0 := by
  revert b; decide +kernel

theorem topBits_bne_zero_iff (b : Byte) : (b.extractLsb' 6 2 != 0) = true ↔ b &&& 0xc0#8 ≠ 0 := by
  revert b; decide +kernel

/-- The must-be-zero bits of the row are those that the decoder tests (R77). -/
theorem unusedBits_iff (op : Opcode) (x : Fields) :
    unusedBits op x = true ↔ x.b1 &&& op.row.zero1 ≠ 0 ∨ x.b2 &&& op.row.zero2 ≠ 0 := by
  have hnone : x.b1 &&& (0 : Byte) ≠ 0 ∨ x.b2 &&& (0 : Byte) ≠ 0 ↔ False := by simp
  have hhigh : (hiNibble x.b2 != 0) = true ↔ x.b1 &&& (0 : Byte) ≠ 0 ∨ x.b2 &&& (0xf0 : Byte) ≠ 0 := by
    simpa using hiNibble_bne_zero_iff x.b2
  have htop : (x.b1.extractLsb' 6 2 != 0) = true ↔ x.b1 &&& (0xc0 : Byte) ≠ 0 ∨ x.b2 &&& (0 : Byte) ≠ 0 := by
    simpa using topBits_bne_zero_iff x.b1
  cases op with
  | sized sz op =>
    cases op with
    | x38 | x39 | x3b => exact hhigh
    | x10 | x20 | x30 | x31 | x36 | x37 | x3c | x3d => exact (iff_false_intro Bool.false_ne_true).trans hnone.symm
  | unsized op =>
    cases op with
    | xfa | xfd | xfe => exact hhigh
    | xf4 => exact htop
    | xc0 | xe0 | xf0 | xf1 | xf2 | xf9 | xff => exact (iff_false_intro Bool.false_ne_true).trans hnone.symm

/-! Subopcodes. -/

section
variable (x : Fields)

@[simp] theorem read_o1 : SubopcodePlace.o1.read x.b0 x.b1 x.b2 = x.o1 := by
  simp [SubopcodePlace.read, Fields.o1, loNibble]
@[simp] theorem read_o2 : SubopcodePlace.o2.read x.b0 x.b1 x.b2 = x.o2 := by
  simp [SubopcodePlace.read, Fields.o2, loNibble]
@[simp] theorem read_o3 : SubopcodePlace.o3.read x.b0 x.b1 x.b2 = x.o3 := by
  simp [SubopcodePlace.read, Fields.o3, loNibble]
@[simp] theorem read_ol : SubopcodePlace.ol.read x.b0 x.b1 x.b2 = x.ol := by
  simp [SubopcodePlace.read, Fields.ol]

theorem o1_lt : x.o1 < 16 := (loNibble x.b0).isLt
theorem o2_lt : x.o2 < 16 := (loNibble x.b1).isLt
theorem o3_lt : x.o3 < 16 := (loNibble x.b2).isLt
theorem ol_lt : x.ol < 64 := (x.b1.extractLsb' 0 6).isLt

end

/-- Whether the version has the instruction of a subopcode, by the row: none where the subopcode is not listed. -/
def Machine.OpcodeRow.onVersion (row : OpcodeRow) (v : FalconVersion) (sub : Nat) : Option Bool :=
  if sub ∈ row.listed then some (!(decide (sub ∈ row.v3plusOnly) && v.isV0)) else none

theorem map_wellFormed_unaryCell (v : FalconVersion) (sz : Size) (n : Nat) (f : UnaryForm) :
    (unaryCell v sz n f).map (Instr.wellFormed v) = if n < 4 then some true else none := by
  match n with
  | 0 | 1 | 3 => rfl
  | 2 => cases hv : v.isV0 <;> simp [unaryCell, hv, Instr.wellFormed, Instr.presence, Presence.admits]
  | k + 4 => simp [unaryCell]

/-- The subopcodes of the row are those whose cell holds an instruction, which the version has as the row says. -/
theorem map_wellFormed_sizedCell (v : FalconVersion) (sz : Size) (op : SizedOpcode) (x : Fields) :
    (sizedCell v sz op x).map (Instr.wellFormed v) =
      (Opcode.sized sz op).row.onVersion v ((Opcode.sized sz op).row.place.read x.b0 x.b1 x.b2) := by
  have h1 := o1_lt x
  have h2 := o2_lt x
  have h3 := o3_lt x
  cases op with
  | x10 | x20 =>
    refine Eq.trans ?_ (congrArg _ (read_o1 x).symm)
    simp only [sizedCell]
    generalize x.o1 = n at h1
    interval_cases n <;> rfl
  | x30 | x31 | x36 | x37 =>
    refine Eq.trans ?_ (congrArg _ (read_o2 x).symm)
    simp only [sizedCell]
    generalize x.o2 = n at h2
    interval_cases n <;> rfl
  | x38 | x3b | x3c =>
    refine Eq.trans ?_ (congrArg _ (read_o3 x).symm)
    simp only [sizedCell]
    generalize x.o3 = n at h3
    interval_cases n <;> rfl
  | x39 =>
    refine Eq.trans ?_ (congrArg _ (read_o3 x).symm)
    simp only [sizedCell, map_wellFormed_unaryCell]
    generalize x.o3 = n at h3
    interval_cases n <;> rfl
  | x3d =>
    refine Eq.trans ?_ (congrArg _ (read_o2 x).symm)
    simp only [sizedCell, Option.orElse_eq_orElse, Option.orElse_eq_or, Option.map_or, map_wellFormed_unaryCell]
    generalize x.o2 = n at h2
    interval_cases n <;> rfl

theorem map_wellFormed_unsizedCell (v : FalconVersion) (op : UnsizedOpcode) (x : Fields) :
    (unsizedCell op x).map (Instr.wellFormed v) =
      (Opcode.unsized op).row.onVersion v ((Opcode.unsized op).row.place.read x.b0 x.b1 x.b2) := by
  have h1 := o1_lt x
  have h2 := o2_lt x
  have h3 := o3_lt x
  have hl := ol_lt x
  cases op with
  | xc0 | xe0 =>
    refine Eq.trans ?_ (congrArg _ (read_o1 x).symm)
    simp only [unsizedCell]
    generalize x.o1 = n at h1
    interval_cases n <;> rfl
  | xf0 | xf1 | xf2 | xf9 =>
    refine Eq.trans ?_ (congrArg _ (read_o2 x).symm)
    simp only [unsizedCell]
    generalize x.o2 = n at h2
    interval_cases n <;> rfl
  | xfa | xfd | xfe | xff =>
    refine Eq.trans ?_ (congrArg _ (read_o3 x).symm)
    simp only [unsizedCell]
    generalize x.o3 = n at h3
    interval_cases n <;> rfl
  | xf4 =>
    refine Eq.trans ?_ (congrArg _ (read_ol x).symm)
    simp only [unsizedCell]
    generalize x.ol = n at hl
    interval_cases n <;> rfl

theorem map_wellFormed_cellOf (v : FalconVersion) (op : Opcode) (x : Fields) :
    (cellOf v op x).map (Instr.wellFormed v) = op.row.onVersion v (op.row.place.read x.b0 x.b1 x.b2) := by
  cases op with
  | sized sz op => exact map_wellFormed_sizedCell v sz op x
  | unsized op => exact map_wellFormed_unsizedCell v op x

section
variable {v : FalconVersion} {op : Opcode} {x : Fields}

theorem cellOf_eq_none_of_unlisted (h : op.row.place.read x.b0 x.b1 x.b2 ∉ op.row.listed) : cellOf v op x = none := by
  simpa [Machine.OpcodeRow.onVersion, h] using map_wellFormed_cellOf v op x

/-- A listed subopcode selects an instruction, which only v0 can lack. -/
theorem exists_cellOf_of_listed (h : op.row.place.read x.b0 x.b1 x.b2 ∈ op.row.listed) :
    ∃ i, cellOf v op x = some i ∧
      (i.wellFormed v = false ↔ v.isV0 = true ∧ op.row.place.read x.b0 x.b1 x.b2 ∈ op.row.v3plusOnly) := by
  have hmap := map_wellFormed_cellOf v op x
  rw [Machine.OpcodeRow.onVersion, if_pos h, Option.map_eq_some_iff] at hmap
  obtain ⟨i, hcell, hwf⟩ := hmap
  refine ⟨i, hcell, ?_⟩
  rw [hwf, Bool.not_eq_false', Bool.and_eq_true, decide_eq_true_iff, and_comm]

end

/-- Settles O3: the row of an opcode has the length, the must-be-zero bits and the subopcodes that the decoder tests in
turn. -/
theorem unlistedEncodingsAreRefused : Obligations.UnlistedEncodingsAreRefused := by
  intro v b0 rest b1 b2
  have hunlisted (hkey : opcodeKey b0 ∉ opcodeRows.map OpcodeRow.number) :
      decode v (b0 :: rest) = .error .notAnInstruction :=
    decode_of_no_opcode v rest ((opcodeOf_eq_none_iff b0).mpr hkey)
  refine ⟨fun hsized hzero => hunlisted ?_, hunlisted, fun row hmem hkey => ?_⟩
  · rw [opcodeKey_of_sizedZero hsized hzero]
    decide
  obtain ⟨op, hop⟩ : ∃ op, opcodeOf b0 = some op :=
    Option.ne_none_iff_exists'.mp fun hnone => (opcodeOf_eq_none_iff b0).mp hnone (key_mem_of_row hmem hkey)
  obtain rfl := row_eq_of_opcodeOf hop hmem hkey
  intro sub
  have hunused := unusedBits_iff op (fieldsOf b0 rest)
  rw [length_row]
  split_ifs with hlen hbits hlisted habsent
  · exact decode_of_short v hop hlen
  · exact decode_of_unusedBits v hop hlen (hunused.mpr hbits)
  all_goals have hun : unusedBits op (fieldsOf b0 rest) = false := by simpa using hunused.not.mpr hbits
  · obtain ⟨i, hcell, hwf⟩ := exists_cellOf_of_listed (v := v) (x := fieldsOf b0 rest) hlisted
    rw [decode_of_cell v hop hlen hun hcell, checkPresence]
    exact if_neg (by simpa using hwf.mpr habsent)
  · obtain ⟨i, hcell, hwf⟩ := exists_cellOf_of_listed (v := v) (x := fieldsOf b0 rest) hlisted
    refine ⟨i, ?_⟩
    rw [decode_of_cell v hop hlen hun hcell, checkPresence]
    exact if_pos (by simpa using hwf.not.mpr habsent)
  · exact decode_of_no_cell v hop hlen hun (cellOf_eq_none_of_unlisted hlisted)

/-- The rows with must-be-zero bits, by byte 0 (R77). -/
theorem exists_row_with_zero2 (b0 : Byte)
    (h : b0.toNat ∈ [0x38, 0x78, 0xb8, 0x39, 0x79, 0xb9, 0x3b, 0x7b, 0xbb, 0xfa, 0xfd, 0xfe]) :
    ∃ row ∈ opcodeRows, row.number = opcodeKey b0 ∧ row.length = 3 ∧ row.zero2 = 0xf0 := by
  revert b0; decide +kernel

theorem exists_row_with_zero1 (b0 : Byte) (h : b0.toNat = 0xf4) :
    ∃ row ∈ opcodeRows, row.number = opcodeKey b0 ∧ row.length = 3 ∧ row.zero1 = 0xc0 := by
  revert b0; decide +kernel

theorem and_f0_ne_zero {b : Byte} (h : b.toNat / 16 ≠ 0) : b &&& 0xf0 ≠ 0 := by
  revert b; decide +kernel

theorem and_c0_ne_zero {b : Byte} (h : b.toNat / 64 ≠ 0) : b &&& 0xc0 ≠ 0 := by
  revert b; decide +kernel

/-- Settles O4: each of these opcodes is a row of the map, of length 3, whose must-be-zero bits are these. -/
theorem unusedBitsAreRefused : Obligations.UnusedBitsAreRefused := by
  intro v b0 b1 b2 rest hbits
  obtain ⟨row, hmem, hkey, hlen, hzero⟩ : ∃ row ∈ opcodeRows, row.number = opcodeKey b0 ∧ row.length = 3 ∧
      (b1 &&& row.zero1 ≠ 0 ∨ b2 &&& row.zero2 ≠ 0) := by
    obtain ⟨hb0, hb2⟩ | ⟨hb0, hb1⟩ := hbits
    · obtain ⟨row, hmem, hkey, hlen, hzero2⟩ := exists_row_with_zero2 b0 hb0
      exact ⟨row, hmem, hkey, hlen, .inr (hzero2 ▸ and_f0_ne_zero hb2)⟩
    · obtain ⟨row, hmem, hkey, hlen, hzero1⟩ := exists_row_with_zero1 b0 hb0
      exact ⟨row, hmem, hkey, hlen, .inl (hzero1 ▸ and_c0_ne_zero hb1)⟩
  obtain ⟨-, -, hrow⟩ := unlistedEncodingsAreRefused v b0 (b1 :: b2 :: rest)
  have hdecode := hrow row hmem hkey
  rw [if_neg (by simp [hlen])] at hdecode
  exact (if_pos hzero).mp hdecode

/-- Settles O5: the decoder finds the opcode of the first byte, whose length the instruction has. -/
theorem truncatedInstructionIsRefused : Obligations.TruncatedInstructionIsRefused := by
  intro v bs i n h hn
  obtain ⟨b0, rest, op, rfl, hop, -, hun, hcell, -⟩ := (decode_eq_ok_iff v bs i).mp h
  rw [len_of_cellOf (x := fieldsOf b0 rest) hop hun hcell] at hn
  cases n with
  | zero => rfl
  | succ m =>
    refine decode_of_short v hop (lt_of_le_of_lt ?_ hn)
    simp

/-! The version (R66). -/

/-- Decoding and encoding are inverse on what the version has (O1 and O2 in one). -/
theorem decode_eq_ok_iff_encode (v : FalconVersion) (bs : List Byte) (i : Instr) :
    decode v bs = .ok i ↔ i.wellFormed v = true ∧ bs.take i.len = encode i := by
  refine ⟨encodeOfDecodeIsTheBytes v bs i, fun ⟨hw, htake⟩ => ?_⟩
  rw [← List.take_append_drop i.len bs, htake]
  exact decodeOfEncodeIsTheInstruction v i _ hw

theorem isV0_v3plus (k : Nat) : (FalconVersion.v3plus k).isV0 = false := by
  simp [FalconVersion.isV0, FalconVersion.number]

/-- A subopcode that is no unary operation on one version is none on another. -/
theorem unaryCell_eq_none {v : FalconVersion} (v' : FalconVersion) {sz : Size} {n : Nat} {f : UnaryForm}
    (h : unaryCell v sz n f = none) : unaryCell v' sz n f = none := by
  have hn : ¬ n < 4 := by simpa [h] using map_wellFormed_unaryCell v sz n f
  simpa [hn] using map_wellFormed_unaryCell v' sz n f

/-- But for the register `mov`, the cells of v3+ are those of every version. -/
theorem cellOf_of_v3plus {v v' : FalconVersion} (hv : v.isV0 = false) {op : Opcode} {x : Fields} {i : Instr}
    (hcell : cellOf v op x = some i) (hmov : ∀ sz f, i ≠ .movReg sz f) : cellOf v' op x = some i := by
  have hunary {sz : Size} {n : Nat} {f : UnaryForm} (h : unaryCell v sz n f = some i) :
      unaryCell v' sz n f = some i := by
    unfold unaryCell at h ⊢
    split at h
    case h_3 => exact absurd (by simpa [hv] using h.symm) (hmov sz f)
    all_goals exact h
  match op with
  | .sized sz .x39 => exact hunary hcell
  | .sized sz .x3d =>
    simp only [cellOf, sizedCell, Option.orElse_eq_orElse, Option.orElse_eq_or, Option.or_eq_some_iff] at hcell ⊢
    exact hcell.imp hunary fun ⟨hnone, hone⟩ => ⟨unaryCell_eq_none v' hnone, hone⟩
  | .sized sz .x10 | .sized sz .x20 | .sized sz .x30 | .sized sz .x31 | .sized sz .x36 | .sized sz .x37
  | .sized sz .x38 | .sized sz .x3b | .sized sz .x3c | .unsized _ => exact hcell

/-- Settles O6: the moves have one encoding, so the round trip gives either; any other cell is the same on both
versions, and the presence decides. -/
theorem versionDecidesDecoding : Obligations.VersionDecidesDecoding := by
  intro k bs
  refine ⟨fun sz f => ?_, fun i h hmov => ⟨fun hpresence => ?_, fun hpresence => ?_⟩⟩
  · rw [decode_eq_ok_iff_encode, decode_eq_ok_iff_encode]
    refine and_congr_left fun _ => iff_of_true ?_ rfl
    simp [Instr.wellFormed, Instr.presence, Presence.admits, isV0_v3plus]
  · obtain ⟨b0, rest, op, rfl, hop, hlen, hun, hcell, -⟩ := (decode_eq_ok_iff _ bs i).mp h
    rw [decode_of_cell .v0 hop (by simpa using hlen) hun (cellOf_of_v3plus (isV0_v3plus k) hcell hmov), checkPresence]
    exact if_neg (by simp [Instr.wellFormed, hpresence, Presence.admits, FalconVersion.isV0, FalconVersion.number])
  · rw [decode_eq_ok_iff_encode] at h ⊢
    exact ⟨by rw [Instr.wellFormed, hpresence]; rfl, h.2⟩

/-- Settles O7: the decoder runs on each word. -/
theorem exampleWordsDecode : Obligations.ExampleWordsDecode :=
  ⟨rfl, rfl, rfl, rfl, rfl, rfl, rfl, rfl, rfl, rfl, rfl⟩

end Sys2Proof
end

section
/-! PROOF. What an instruction reads of the state and what it writes to it, when it is refused, and with them that no
instruction faults, skips its length, reads `pc` or is refused without a reason (R16, R29, R66, R200, R213). -/

namespace Sys2Proof.Machine

/-! What an instruction reads and writes. -/

/-- `s'` gives an instruction the same to read as `s`: the registers, `$flags` and the parameters, of which the version
counts only through `isV0` (R2). Neither `pc` nor the image is among them. -/
structure SameInputs (s s' : State) : Prop where
  regs : s'.regs = s.regs
  flags : s'.flags = s.flags
  isV0 : s'.isV0 = s.isV0
  flagsOutside : s'.config.flagsOutside = s.config.flagsOutside
  flagsDefinedMask : s'.config.flagsDefinedMask = s.config.flagsDefinedMask
  insOob : s'.config.insOob = s.config.insOob

theorem SameInputs.refl (s : State) : SameInputs s s := ⟨rfl, rfl, rfl, rfl, rfl, rfl⟩

/-- `s` after an instruction of length `len` that leaves the registers and the flags of `t`. -/
def State.withWritesOf (s t : State) (len : Nat) : State :=
  { s with regs := t.regs, flags := t.flags, pc := s.pc + len }

section
variable {s s' : State} (h : SameInputs s s') (g : State → State)
include h

theorem onlyV3plus_of_sameInputs {m m' : Result} (hm : m' = mapNext g m) :
    onlyV3plus s' m' = mapNext g (onlyV3plus s m) := by
  unfold onlyV3plus
  rw [h.isV0, hm]
  split <;> rfl

theorem onlyV0_of_sameInputs {m m' : Result} (hm : m' = mapNext g m) :
    onlyV0 s' m' = mapNext g (onlyV0 s m) := by
  unfold onlyV0
  rw [h.isV0, hm]
  split <;> rfl

theorem onFlagsBit_of_sameInputs (n : Nat) {m m' : Result} (hm : m' = mapNext g m) :
    onFlagsBit s' n m' = mapNext g (onFlagsBit s n m) := by
  have husable : s'.flagsBitUsable n = s.flagsBitUsable n := by
    rw [State.flagsBitUsable, State.flagsBitUsable, h.flagsOutside, h.flagsDefinedMask]
  unfold onFlagsBit
  rw [husable, hm]
  split <;> rfl

end

/-- An instruction answers alike wherever it reads the same: it writes registers and `$flags` and advances `pc` by its
length, and keeps everything else of the state it starts from (R29, R32, R41). -/
theorem exec_of_sameInputs {s s' : State} (h : SameInputs s s') (i : Instr) :
    exec i s' = mapNext (fun t => s'.withWritesOf t i.len) (exec i s) := by
  obtain ⟨regs, flags, pc, code, config⟩ := s
  obtain ⟨regs', flags', pc', code', config'⟩ := s'
  obtain ⟨hregs, hflags, hv, -, -, hoob⟩ := id h
  dsimp only at hregs hflags hoob
  subst hregs hflags
  cases i with
  | cmpu _ _ | cmps _ _ | add _ _ | adc _ _ | sub _ _ | sbb _ _ | not _ _ | neg _ _ | hswap _ _ | movImm _ | sethi _
  | clear _ _ | mulu _ | muls _ | sext _ => rfl
  | cmp _ _ | movReg _ _ | setf _ _ | extr _ | extrs _ | div _ | mod _ => exact onlyV3plus_of_sameInputs h _ rfl
  | movf _ _ => exact onlyV0_of_sameInputs h _ rfl
  | setp _ => exact onFlagsBit_of_sameInputs h _ _ rfl
  | shl _ _ | shr _ _ | sar _ _ | shlc _ _ | shrc _ _ =>
    simp only [exec, execShl, execShr, execSar, execShlc, execShrc, finishShift, hv]
    rfl
  | and _ | or _ | xor _ =>
    simp only [exec, execAnd, execOr, execXor, finishLogic, hv]
    rfl
  | bset f | bclr f | btgl f =>
    simp only [exec, execBset, execBclr, execBtgl, modifyBit]
    cases f.dst with
    | some r => rfl
    | none => exact onFlagsBit_of_sameInputs h _ _ rfl
  | ins f =>
    refine onlyV3plus_of_sameInputs h _ (Eq.trans ?_ (apply_ite (mapNext _) _ _ _).symm)
    refine if_congr Iff.rfl rfl ?_
    simp only [insOutside, hoob]
    split <;> rfl
  | xbit f =>
    simp only [exec, execXbit, hv]
    cases f.readsFlags <;> simp only [if_true, Bool.false_eq_true, if_false]
    case true =>
      refine onFlagsBit_of_sameInputs h _ _ (Eq.trans ?_ (apply_ite (mapNext _) _ _ _).symm)
      exact if_congr Iff.rfl rfl rfl
    case false =>
      refine Eq.trans ?_ (apply_ite (mapNext _) _ _ _).symm
      exact if_congr Iff.rfl rfl rfl

/-- What an instruction can answer: with `s' = s`, a next state is `s` with other registers and flags. -/
theorem exec_next {i : Instr} {s t : State} (h : exec i s = .next t) : t = s.withWritesOf t i.len := by
  have hself := exec_of_sameInputs (SameInputs.refl s) i
  rw [h] at hself
  exact Host.Outcome.next.inj hself

/-! When an instruction is refused. -/

/-- Refused for its `$flags` bit `n`: the conservative reading of R25, outside the mask. -/
def State.flagsBitRefusal (s : State) (n : Nat) : Option Refusal :=
  if s.flagsBitUsable n then none else some .flagsBitOutsideMask

/-- The bitfield of `ins` is out of bounds and the parameter says to refuse it (R164). -/
def State.insRefusal (s : State) (desc : Word) : Option Refusal :=
  if fieldLow desc + (fieldSizem1 desc + 1) ≤ 32 then none
  else if s.config.insOob = .nop then none else some .insOutOfBounds

/-- Why an instruction that the version has is refused, if it is: only for what a parameter forbids. -/
def operandRefusal (i : Instr) (s : State) : Option Refusal :=
  match i with
  | .ins f => s.insRefusal (f.toAlu.src2 .zero s)
  | .xbit f => if f.readsFlags then s.flagsBitRefusal (bitIndex (f.src2 s)) else none
  | .bset f => if f.dst = none then s.flagsBitRefusal (bitIndex (f.src s)) else none
  | .bclr f => if f.dst = none then s.flagsBitRefusal (bitIndex (f.src s)) else none
  | .btgl f => if f.dst = none then s.flagsBitRefusal (bitIndex (f.src s)) else none
  | .setp f => s.flagsBitRefusal (bitIndex (f.src2 s))
  | _ => none

/-- Why an instruction is refused, if it is: absent from the version (R66), or for what a parameter forbids. -/
def refusalFor (i : Instr) (s : State) : Option Refusal :=
  if i.wellFormed s.config.falconVersion then operandRefusal i s else some .notPresentOnVersion

/-- The answer `m` is the refusal for `o`, or a next state where there is none. -/
def AnswersFor (o : Option Refusal) (m : Result) : Prop :=
  match o with
  | some r => m = .refused r
  | none => ∃ t, m = .next t

theorem AnswersFor.done (s : State) (n : Nat) : AnswersFor none (s.done n) := ⟨_, rfl⟩

theorem AnswersFor.onFlagsBit (s : State) (n : Nat) {m : Result} (hm : AnswersFor none m) :
    AnswersFor (s.flagsBitRefusal n) (onFlagsBit s n m) := by
  unfold State.flagsBitRefusal Machine.onFlagsBit
  split
  · exact hm
  · rfl

section
variable {i : Instr} {s : State} {m : Result} (hm : AnswersFor (operandRefusal i s) m)
include hm

theorem AnswersFor.everyVersion (hp : i.presence = .all) : AnswersFor (refusalFor i s) m := by
  have hw : i.wellFormed s.config.falconVersion = true := by rw [Instr.wellFormed, hp]; rfl
  rwa [refusalFor, if_pos hw]

theorem AnswersFor.onlyV3plus (hp : i.presence = .v3plusOnly) : AnswersFor (refusalFor i s) (onlyV3plus s m) := by
  have hw : i.wellFormed s.config.falconVersion = !s.isV0 := by rw [Instr.wellFormed, hp]; rfl
  rw [refusalFor, hw]
  cases hv : s.isV0 with
  | true => exact onlyV3plus_of_v0 s m hv
  | false => rwa [onlyV3plus_of_v3plus s m hv]

theorem AnswersFor.onlyV0 (hp : i.presence = .v0Only) : AnswersFor (refusalFor i s) (onlyV0 s m) := by
  have hw : i.wellFormed s.config.falconVersion = s.isV0 := by rw [Instr.wellFormed, hp]; rfl
  rw [refusalFor, hw]
  cases hv : s.isV0 with
  | true => rwa [onlyV0_of_v0 s m hv]
  | false => exact onlyV0_of_v3plus s m hv

end

theorem modifyBit_answers (op : Word → Nat → Word) (f : BitForm) (s : State) :
    AnswersFor (if f.dst = none then s.flagsBitRefusal (bitIndex (f.src s)) else none) (modifyBit op f s) := by
  unfold modifyBit
  cases f.dst with
  | some r => exact AnswersFor.done _ _
  | none => exact AnswersFor.onFlagsBit s _ (AnswersFor.done _ _)

theorem insOutside_answers (f : InsForm) (s : State) :
    AnswersFor (if s.config.insOob = .nop then none else some .insOutOfBounds) (insOutside f.toAlu.len s) := by
  unfold insOutside
  cases s.config.insOob with
  | nop => exact AnswersFor.done _ _
  | refuse => rfl

theorem xbit_answers (f : XbitForm) (b : Bool) (s : State) :
    AnswersFor none (if s.isV0 then xbitV0 f b s else xbitV3plus f b s) := by
  cases s.isV0 <;> exact AnswersFor.done _ _

/-- Every instruction is refused for the reason given, and completes where there is none. -/
theorem exec_answers (i : Instr) (s : State) : AnswersFor (refusalFor i s) (exec i s) := by
  cases i with
  | cmpu _ _ | cmps _ _ | add _ _ | adc _ _ | sub _ _ | sbb _ _ | shl _ _ | shr _ _ | sar _ _ | shlc _ _ | shrc _ _
  | not _ _ | neg _ _ | hswap _ _ | movImm _ | sethi _ | clear _ _ | mulu _ | muls _ | sext _ | and _ | or _ | xor _ =>
    exact AnswersFor.everyVersion (AnswersFor.done _ _) rfl
  | cmp _ _ | movReg _ _ | setf _ _ | extr _ | extrs _ | div _ | mod _ =>
    exact AnswersFor.onlyV3plus (AnswersFor.done _ _) rfl
  | movf _ _ => exact AnswersFor.onlyV0 (AnswersFor.done _ _) rfl
  | bset f => exact AnswersFor.everyVersion (modifyBit_answers (fun v bit => v ||| BitVec.twoPow 32 bit) f s) rfl
  | bclr f => exact AnswersFor.everyVersion (modifyBit_answers (fun v bit => v &&& ~~~BitVec.twoPow 32 bit) f s) rfl
  | btgl f => exact AnswersFor.everyVersion (modifyBit_answers (fun v bit => v ^^^ BitVec.twoPow 32 bit) f s) rfl
  | setp f => exact AnswersFor.everyVersion (AnswersFor.onFlagsBit s _ (AnswersFor.done _ _)) rfl
  | ins f =>
    refine AnswersFor.onlyV3plus ?_ rfl
    simp only [operandRefusal, State.insRefusal]
    split
    · exact AnswersFor.done _ _
    · exact insOutside_answers f s
  | xbit f =>
    refine AnswersFor.everyVersion ?_ rfl
    simp only [operandRefusal, exec, execXbit]
    cases f.readsFlags with
    | true => exact AnswersFor.onFlagsBit s _ (xbit_answers f _ s)
    | false => exact xbit_answers f _ s

theorem exec_eq_refused_iff (i : Instr) (s : State) (r : Refusal) :
    exec i s = .refused r ↔ refusalFor i s = some r := by
  have h := exec_answers i s
  cases ho : refusalFor i s with
  | none =>
    obtain ⟨t, ht⟩ : ∃ t, exec i s = .next t := by rwa [ho] at h
    simp [ht]
  | some r' =>
    have hr : exec i s = .refused r' := by rwa [ho] at h
    simp [hr]

/-- Settles O10: an instruction is refused or completes. -/
theorem noInstructionFaults : Obligations.NoInstructionFaults := by
  intro i s r hfault
  have h := exec_answers i s
  rw [hfault] at h
  cases ho : refusalFor i s with
  | none =>
    rw [ho] at h
    obtain ⟨t, ht⟩ := h
    cases ht
  | some r' =>
    rw [ho] at h
    cases h

/-- Settles O12: the default parameters forbid nothing, so only absence from the version could refuse it. -/
theorem everyInstructionOfTheVersionCompletes : Obligations.EveryInstructionOfTheVersionCompletes := by
  intro i s hflags hins hw
  have hflagsBit (n : Nat) : s.flagsBitRefusal n = none := if_pos ((s.flagsBitUsable_iff n).mpr (.inl hflags))
  have hoperand : operandRefusal i s = none := by
    cases i with
    | ins f => simp [operandRefusal, State.insRefusal, hins]
    | xbit f => simp [operandRefusal, hflagsBit]
    | bset f | bclr f | btgl f => simp [operandRefusal, hflagsBit]
    | setp f => exact hflagsBit _
    | _ => rfl
  have h := exec_answers i s
  rw [refusalFor, if_pos hw, hoperand] at h
  obtain ⟨t, ht⟩ := h
  exact ⟨t, ht, by rw [exec_next ht]; rfl⟩

/-- Settles O13: absence from the version is the first reason of refusal. -/
theorem absentInstructionIsRefused : Obligations.AbsentInstructionIsRefused := by
  intro i s hw
  rw [exec_eq_refused_iff, refusalFor, if_neg (by simp [hw])]

theorem SameInputs.withPc (s : State) (p : Nat) : SameInputs s (s.withPc p) := ⟨rfl, rfl, rfl, rfl, rfl, rfl⟩

/-- Settles O18: `pc` is not among what an instruction reads. -/
theorem instructionsDoNotReadPc : Obligations.InstructionsDoNotReadPc := by
  intro i s p
  rw [exec_of_sameInputs (SameInputs.withPc s p) i]
  cases ht : exec i s with
  | next t => rw [exec_next ht]; rfl
  | fault _ => rfl
  | refused _ => rfl

/-! Refusals for a `$flags` bit (R25). -/

theorem refusalFor_of_every_version {i : Instr} (hp : i.presence = .all) (s : State) :
    refusalFor i s = operandRefusal i s :=
  if_pos (by rw [Instr.wellFormed, hp]; rfl)

theorem State.flagsBitRefusal_eq_some_iff (s : State) (v : Word) :
    s.flagsBitRefusal (bitIndex v) = some .flagsBitOutsideMask ↔
      s.config.flagsOutside = .refuse ∧ s.config.flagsDefinedMask.getLsbD (v.toNat % 32) = false := by
  rw [bitIndex_eq]
  unfold State.flagsBitRefusal State.flagsBitUsable
  cases s.config.flagsOutside <;> simp

/-- `bset`, `bclr` and `btgl` are refused alike. -/
theorem exec_refused_flagsBit_iff {i : Instr} (f : BitForm) (s : State) (hp : i.presence = .all)
    (hi : operandRefusal i s = if f.dst = none then s.flagsBitRefusal (bitIndex (f.src s)) else none) :
    exec i s = .refused .flagsBitOutsideMask ↔
      s.config.flagsOutside = .refuse ∧ f.dst = none ∧
        s.config.flagsDefinedMask.getLsbD ((f.src s).toNat % 32) = false := by
  rw [exec_eq_refused_iff, refusalFor_of_every_version hp, hi]
  by_cases hdst : f.dst = none
  · simp [hdst, State.flagsBitRefusal_eq_some_iff]
  · simp [hdst]

/-- Settles O59: the reasons of refusal give the `$flags` bit exactly there, and presence on every version leaves no
other. -/
theorem conservativeReadingRefusesUndefinedFlags : Obligations.ConservativeReadingRefusesUndefinedFlags := by
  intro s
  refine ⟨fun f => ?_, fun f => ⟨?_, ?_, ?_⟩, fun f => ?_⟩
  · rw [exec_eq_refused_iff, refusalFor_of_every_version rfl]
    cases hread : f.readsFlags with
    | true => simp [operandRefusal, hread, State.flagsBitRefusal_eq_some_iff]
    | false => simp [operandRefusal, hread]
  · exact exec_refused_flagsBit_iff f s rfl rfl
  · exact exec_refused_flagsBit_iff f s rfl rfl
  · exact exec_refused_flagsBit_iff f s rfl rfl
  · rw [exec_eq_refused_iff, refusalFor_of_every_version rfl]
    exact s.flagsBitRefusal_eq_some_iff (f.src2 s)

end Sys2Proof.Machine
end

section
/-! PROOF. What a step can answer, what a step that completes keeps, the runs made of such steps, and with them the
statements about steps and runs (R2, R41, R80, R228). -/

namespace Sys2Proof.Machine

/-! What a step answers. -/

theorem State.atEnd_iff (s : State) : s.atEnd = true ↔ s.pc = s.code.size := beq_iff_eq

theorem step_of_end {s : State} (h : s.pc = s.code.size) : step s = .fault .endOfRun :=
  if_pos (s.atEnd_iff.mpr h)

section
variable {s : State} (hpc : s.pc ≠ s.code.size)
include hpc

theorem step_of_decode_ok {i : Instr} (h : s.decodeAtPc = .ok i) : step s = exec i s := by
  rw [step, if_neg (s.atEnd_iff.not.mpr hpc), h]

theorem step_of_decode_error {e : DecodeError} (h : s.decodeAtPc = .error e) : step s = .refused (refusalOf e) := by
  rw [step, if_neg (s.atEnd_iff.not.mpr hpc), h]

end

/-- Settles O8: the two branches of a step away from the end. -/
theorem stepRunsTheDecodedInstruction : Obligations.StepRunsTheDecodedInstruction :=
  fun _ hpc => ⟨fun _ => step_of_decode_ok hpc, fun _ => step_of_decode_error hpc⟩

/-- Settles O11: away from the end a step is an instruction or a refusal, and no instruction faults. -/
theorem faultExactlyAtTheEndOfTheImage : Obligations.FaultExactlyAtTheEndOfTheImage := by
  intro s r
  by_cases hpc : s.pc = s.code.size
  · rw [step_of_end hpc]
    simp [hpc]
  · refine iff_of_false (fun hfault => ?_) fun h => hpc h.1
    cases hdecode : s.decodeAtPc with
    | ok i => exact noInstructionFaults i s r (step_of_decode_ok hpc hdecode ▸ hfault)
    | error e => cases step_of_decode_error hpc hdecode ▸ hfault

/-! Fetch. -/

/-- Bytes that the image holds are the first of those read, as far as the reading goes. -/
theorem Memory.readUpTo_of_holds (m : Memory) (bs : List Byte) (a n : Nat)
    (h : ∀ k, k < bs.length → m.read (a + k) = bs[k]?) (hn : bs.length ≤ n) :
    ∃ rest, m.readUpTo a n = bs ++ rest := by
  induction bs generalizing a n with
  | nil => exact ⟨_, rfl⟩
  | cons b bs ih =>
    obtain ⟨n, rfl⟩ : ∃ n', n = n' + 1 := Nat.exists_eq_add_one.mpr (Nat.zero_lt_of_lt hn)
    have hb : m.read a = some b := h 0 (by simp)
    obtain ⟨rest, hrest⟩ := ih (a + 1) n
      (fun k hk => by simpa [Nat.add_assoc, Nat.add_comm 1] using h (k + 1) (by simpa using hk)) (by simpa using hn)
    exact ⟨rest, by simp [Memory.readUpTo, hb, hrest]⟩

/-- Settles O9: the bytes fetched begin with the encoding, and the decoder ignores what follows it. -/
theorem stepRunsTheEncodedInstruction : Obligations.StepRunsTheEncodedInstruction := by
  intro s i hw hholds
  obtain ⟨hlen, htwo, hfour⟩ := length_encode i
  obtain ⟨rest, hfetch⟩ := s.code.readUpTo_of_holds (encode i) s.pc longestInstr hholds (hlen ▸ hfour)
  have hdecode : s.decodeAtPc = .ok i := by
    rw [State.decodeAtPc, State.fetchBytes, hfetch]
    exact decodeOfEncodeIsTheInstruction _ i rest hw
  have hfirst : s.code.read s.pc = some (encode i)[0] := by
    rw [← List.getElem?_eq_getElem]
    exact hholds 0 (by omega)
  exact step_of_decode_ok (s.code.read_lt_size s.pc _ hfirst).ne hdecode

/-! A step that completes. -/

theorem step_next {s t : State} (h : step s = .next t) :
    ∃ i, s.decodeAtPc = .ok i ∧ t = s.withWritesOf t i.len := by
  by_cases hpc : s.pc = s.code.size
  · cases step_of_end hpc ▸ h
  · cases hdecode : s.decodeAtPc with
    | ok i => exact ⟨i, rfl, exec_next (step_of_decode_ok hpc hdecode ▸ h)⟩
    | error e => cases step_of_decode_error hpc hdecode ▸ h

/-- A decoded instruction ends inside the image. -/
theorem pc_add_len_le_size {s : State} {i : Instr} (h : s.decodeAtPc = .ok i) : s.pc + i.len ≤ s.code.size := by
  obtain ⟨-, htake⟩ := encodeOfDecodeIsTheBytes _ _ _ h
  obtain ⟨hlen, htwo, -⟩ := length_encode i
  have hle : i.len ≤ s.fetchBytes.length := by
    rw [← hlen, ← htake]
    exact List.length_take_le' _ _
  have hend := s.fetchBytes_end (List.ne_nil_of_length_pos (by omega))
  omega

/-- A step that completes keeps the image and the parameters, advances `pc` by 2 or more and stays in the image. -/
theorem step_keeps {s t : State} (h : step s = .next t) :
    t.code = s.code ∧ t.config = s.config ∧ s.pc + 2 ≤ t.pc ∧ t.pc ≤ s.code.size := by
  obtain ⟨i, hdecode, ht⟩ := step_next h
  obtain ⟨-, htwo, -⟩ := length_encode i
  have hend := pc_add_len_le_size hdecode
  rw [ht]
  exact ⟨rfl, rfl, Nat.add_le_add_left htwo _, hend⟩

/-- Settles O14: the image is kept, and a decoded instruction ends inside it. -/
theorem stepKeepsTheInvariant : Obligations.StepKeepsTheInvariant := by
  intro s t ⟨hwf, _⟩ h
  obtain ⟨hcode, -, -, hend⟩ := step_keeps h
  exact ⟨hcode ▸ hwf, hcode ▸ hend⟩

/-- Settles O15: the empty image is canonical and ends at 0. -/
theorem resetHasTheInvariant : Obligations.ResetHasTheInvariant :=
  ⟨⟨State.reset_code_wf, Nat.le_refl 0⟩, rfl, fun _ => rfl⟩

/-! Runs. -/

section
variable {M : Host.Core}

theorem run_succ_next {k : Nat} {s t : M.State} (h : M.run (k + 1) s = .next t) :
    ∃ u, M.step s = .next u ∧ M.run k u = .next t := by
  rw [Host.Core.run] at h
  split at h
  · exact ⟨_, ‹_›, h⟩
  · cases h
  · cases h

/-- Induction over the runs that complete, from the first step on. -/
theorem run_induction {P : Nat → M.State → M.State → Prop} (hzero : ∀ s, P 0 s s)
    (hsucc : ∀ k s u t, M.step s = .next u → P k u t → P (k + 1) s t) (k : Nat) (s t : M.State)
    (h : M.run k s = .next t) : P k s t := by
  induction k generalizing s with
  | zero =>
    cases h
    exact hzero _
  | succ k ih =>
    obtain ⟨u, hstep, hrun⟩ := run_succ_next h
    exact hsucc k s u t hstep (ih u hrun)

end

/-- Settles O16: each step of the run advances `pc` by 2 or more inside the same image. -/
theorem everyRunTerminates : Obligations.EveryRunTerminates := by
  intro k s t hpc h
  have hbounds : s.pc ≤ s.code.size → s.pc + 2 * k ≤ t.pc ∧ t.pc ≤ s.code.size := by
    refine run_induction (M := core) (P := fun k s t => s.pc ≤ s.code.size → s.pc + 2 * k ≤ t.pc ∧ t.pc ≤ s.code.size)
      (fun s hs => ⟨Nat.le_refl _, hs⟩) (fun k s u t hstep ih _ => ?_) k s t h
    obtain ⟨hcode, -, hadvance, hend⟩ := step_keeps hstep
    rw [hcode] at ih
    obtain ⟨hlow, hhigh⟩ := ih hend
    exact ⟨by omega, hhigh⟩
  obtain ⟨hlow, hhigh⟩ := hbounds hpc
  exact ⟨hlow, hhigh, by omega⟩

/-- Settles O17: each step of the run keeps both. -/
theorem runKeepsImageAndParameters : Obligations.RunKeepsImageAndParameters := by
  refine run_induction (M := core) (fun s => ⟨rfl, rfl⟩) fun k s u t hstep ⟨ihcode, ihconfig⟩ => ?_
  obtain ⟨hcode, hconfig, -⟩ := step_keeps hstep
  exact ⟨ihcode.trans hcode, ihconfig.trans hconfig⟩

/-! The version (R2). -/

end Sys2Proof.Machine

namespace Sys2Proof

theorem decode_of_isV0_eq {v v' : FalconVersion} (hv : v.isV0 = v'.isV0) (bs : List Byte) :
    decode v bs = decode v' bs := by
  have hunary : unaryCell v = unaryCell v' := by
    unfold unaryCell
    rw [hv]
  have hcell : cellOf v = cellOf v' := by
    unfold cellOf sizedCell
    rw [hunary]
  have hpresence : checkPresence v = checkPresence v' := by
    unfold checkPresence Instr.wellFormed Presence.admits
    rw [hv]
  unfold decode
  rw [hcell, hpresence]

namespace Machine

theorem SameInputs.withVersion_v3plus (s : State) (k k' : Nat) :
    SameInputs (s.withVersion (.v3plus k)) (s.withVersion (.v3plus k')) :=
  ⟨rfl, rfl, (isV0_v3plus k').trans (isV0_v3plus k).symm, rfl, rfl, rfl⟩

/-- Settles O19: neither decoding nor an instruction tells two v3+ versions apart. -/
theorem versionMattersOnlyThroughIsV0 : Obligations.VersionMattersOnlyThroughIsV0 := by
  intro s k k'
  have hdecode : (s.withVersion (.v3plus k')).decodeAtPc = (s.withVersion (.v3plus k)).decodeAtPc :=
    decode_of_isV0_eq ((isV0_v3plus k').trans (isV0_v3plus k).symm) s.fetchBytes
  by_cases hpc : s.pc = s.code.size
  · rw [step_of_end (s := s.withVersion (.v3plus k)) hpc, step_of_end (s := s.withVersion (.v3plus k')) hpc]
    rfl
  · have hpc_k : (s.withVersion (.v3plus k)).pc ≠ (s.withVersion (.v3plus k)).code.size := hpc
    have hpc_k' : (s.withVersion (.v3plus k')).pc ≠ (s.withVersion (.v3plus k')).code.size := hpc
    cases hi : (s.withVersion (.v3plus k)).decodeAtPc with
    | error e =>
      rw [step_of_decode_error hpc_k hi, step_of_decode_error hpc_k' (hdecode.trans hi)]
      rfl
    | ok i =>
      rw [step_of_decode_ok hpc_k hi, step_of_decode_ok hpc_k' (hdecode.trans hi),
        exec_of_sameInputs (SameInputs.withVersion_v3plus s k k') i]
      cases ht : exec i (s.withVersion (.v3plus k)) with
      | next t => rw [exec_next ht]; rfl
      | fault _ => rfl
      | refused _ => rfl

end Machine

end Sys2Proof
end

section
/-! PROOF. Two states that agree below an operation size give a sized instruction the same operands, and its writes keep
the agreement; with it that the bits above the size have no effect (R23). -/

namespace Sys2Proof.Machine

theorem width_dvd_two_pow (sz : Size) : width sz ∣ 2 ^ width sz := by cases sz <;> decide

/-- A shift count depends on the low bits alone. -/
theorem shiftCount_of_lo_eq {sz : Size} {v v' : Word} (h : lo sz v = lo sz v') :
    shiftCount sz v = shiftCount sz v' := by
  have hmod (u : Word) : u.toNat % width sz = (lo sz u).toNat % width sz := by
    rw [toNat_lo, Nat.mod_mod_of_dvd _ (width_dvd_two_pow sz)]
  rw [shiftCount_eq, shiftCount_eq, hmod v, hmod v', h]

section
variable {sz : Size} {s s' : State} (h : AgreeBelow sz s s')
include h

/-! What the two states give to read. -/

theorem AgreeBelow.reg (r : Reg) : lo sz (s.reg r) = lo sz (s'.reg r) := h.1 r
theorem AgreeBelow.flags : s.flags = s'.flags := h.2.1
theorem AgreeBelow.config : s.config = s'.config := h.2.2

theorem AgreeBelow.isV0 : s.isV0 = s'.isV0 := by
  rw [State.isV0, State.isV0, h.config]

theorem AgreeBelow.aluSrc1 (f : AluForm) : lo sz (f.src1 s) = lo sz (f.src1 s') := h.reg _

theorem AgreeBelow.aluSrc2 (f : AluForm) (e : Extension) : lo sz (f.src2 e s) = lo sz (f.src2 e s') := by
  cases f with
  | r1r2i8 | r1r2i16 | r2r2i8 | r2r2i16 => rfl
  | r2r2r1 _ r1 | r3r2r1 _ _ r1 => exact h.reg r1

theorem AgreeBelow.cmpSrc1 (f : CmpForm) : lo sz (f.src1 s) = lo sz (f.src1 s') := by
  cases f <;> exact h.reg _

theorem AgreeBelow.cmpSrc2 (f : CmpForm) (e : Extension) : lo sz (f.src2 e s) = lo sz (f.src2 e s') := by
  cases f with
  | r2i8 | r2i16 => rfl
  | r2r1 _ r1 => exact h.reg r1

theorem AgreeBelow.unarySrc (f : UnaryForm) : lo sz (f.src s) = lo sz (f.src s') := by
  cases f <;> exact h.reg _

theorem AgreeBelow.carryIn : Machine.carryIn sz s = Machine.carryIn sz s' := by
  rw [Machine.carryIn, Machine.carryIn, h.flags]

theorem AgreeBelow.carryBit (n : Nat) : Machine.carryBit sz n s = Machine.carryBit sz n s' := by
  rw [Machine.carryBit, Machine.carryBit, h.flags]

theorem AgreeBelow.shiftValue (f : ShiftForm) : Machine.shiftValue sz f s = Machine.shiftValue sz f s' :=
  h.aluSrc1 f.toAlu

theorem AgreeBelow.shiftAmount (f : ShiftForm) : Machine.shiftAmount sz f s = Machine.shiftAmount sz f s' :=
  shiftCount_of_lo_eq (h.aluSrc2 f.toAlu .truncated)

/-! The same writes to both keep the agreement. -/

theorem AgreeBelow.writeSized (d : Reg) (v : BitVec (width sz)) :
    AgreeBelow sz (s.writeSized sz d v) (s'.writeSized sz d v) := by
  refine ⟨fun r => ?_, h.flags, h.config⟩
  by_cases hdr : d = r
  · subst hdr
    rw [State.reg_writeSized_same, State.reg_writeSized_same, lo_mergeSized, lo_mergeSized]
  · rw [State.reg_writeSized_other _ _ _ _ _ hdr, State.reg_writeSized_other _ _ _ _ _ hdr, h.reg]

theorem AgreeBelow.setFlags (fl : Word) : AgreeBelow sz (s.setFlags fl) (s'.setFlags fl) := ⟨h.reg, rfl, h.config⟩

theorem AgreeBelow.advance (n : Nat) : AgreeBelow sz (s.advance n) (s'.advance n) := h

end

/-- Where the one completes, the other does, in a state that agrees. -/
def AgreeAfter (sz : Size) (m m' : Result) : Prop :=
  ∀ t, m = .next t → ∃ t', m' = .next t' ∧ AgreeBelow sz t t'

section
variable {sz : Size} {s s' : State}

theorem AgreeAfter.done {n : Nat} (h : AgreeBelow sz s s') : AgreeAfter sz (s.done n) (s'.done n) := by
  intro t ht
  cases ht
  exact ⟨_, rfl, h.advance n⟩

variable (h : AgreeBelow sz s s')
include h

theorem AgreeAfter.onlyV3plus {m m' : Result} (hm : AgreeAfter sz m m') :
    AgreeAfter sz (onlyV3plus s m) (onlyV3plus s' m') := by
  intro t ht
  obtain ⟨hv, hnext⟩ := onlyV3plus_next s t m ht
  rw [onlyV3plus_of_v3plus s' m' (h.isV0 ▸ hv)]
  exact hm t hnext

theorem AgreeAfter.onlyV0 {m m' : Result} (hm : AgreeAfter sz m m') : AgreeAfter sz (onlyV0 s m) (onlyV0 s' m') := by
  intro t ht
  obtain ⟨hv, hnext⟩ := onlyV0_next s t m ht
  rw [onlyV0_of_v0 s' m' (h.isV0 ▸ hv)]
  exact hm t hnext

theorem finishAddSub_agree (f : AluForm) (c o : Bool) (res : BitVec (width sz)) :
    AgreeAfter sz (finishAddSub sz f c o res s) (finishAddSub sz f c o res s') := by
  rw [finishAddSub, finishAddSub, h.flags]
  exact AgreeAfter.done ((h.writeSized _ _).setFlags _)

theorem finishShift_agree (f : ShiftForm) (c : Bool) (res : BitVec (width sz)) :
    AgreeAfter sz (finishShift sz f c res s) (finishShift sz f c res s') := by
  rw [finishShift, finishShift, h.flags, h.isV0]
  exact AgreeAfter.done ((h.writeSized _ _).setFlags _)

theorem finishUnary_agree (f : UnaryForm) (o : Bool) (res : BitVec (width sz)) :
    AgreeAfter sz (finishUnary sz f o res s) (finishUnary sz f o res s') := by
  rw [finishUnary, finishUnary, h.flags]
  exact AgreeAfter.done ((h.writeSized _ _).setFlags _)

/-- Every sized instruction: its operands are the same in both states, and so are its writes. -/
theorem exec_agree {i : Instr} (hsz : opSize i = some sz) : AgreeAfter sz (exec i s) (exec i s') := by
  cases i with
  | add _ f | adc _ f | sub _ f | sbb _ f =>
    cases hsz
    simp only [exec, execAdd, execAdc, execSub, execSbb, h.aluSrc1, h.aluSrc2, h.carryIn]
    exact finishAddSub_agree h f _ _ _
  | shl _ f | shr _ f | sar _ f | shlc _ f | shrc _ f =>
    cases hsz
    simp only [exec, execShl, execShr, execSar, execShlc, execShrc, h.shiftValue, h.shiftAmount, h.carryBit]
    exact finishShift_agree h f _ _
  | not _ f | neg _ f | hswap _ f =>
    cases hsz
    simp only [exec, execNot, execNeg, execHswap, h.unarySrc]
    exact finishUnary_agree h f _ _
  | movf _ f =>
    cases hsz
    simp only [exec, execMovf, h.unarySrc]
    exact AgreeAfter.onlyV0 h (finishUnary_agree h f _ _)
  | movReg _ f =>
    cases hsz
    simp only [exec, execMovReg, h.unarySrc]
    exact AgreeAfter.onlyV3plus h (AgreeAfter.done (h.writeSized _ _))
  | clear _ r2 =>
    cases hsz
    exact AgreeAfter.done (h.writeSized r2 0)
  | cmpu _ f | cmps _ f =>
    cases hsz
    simp only [exec, execCmpu, execCmps, h.cmpSrc1, h.cmpSrc2, h.flags]
    exact AgreeAfter.done (h.setFlags _)
  | cmp _ f =>
    cases hsz
    simp only [exec, execCmp, h.cmpSrc1, h.cmpSrc2, h.flags]
    exact AgreeAfter.onlyV3plus h (AgreeAfter.done (h.setFlags _))
  | setf _ r2 =>
    cases hsz
    simp only [exec, execSetf, h.reg, h.flags]
    exact AgreeAfter.onlyV3plus h (AgreeAfter.done (h.setFlags _))
  | movImm _ | sethi _ | mulu _ | muls _ | sext _ | extr _ | extrs _ | ins _ | and _ | or _ | xor _ | xbit _
  | bset _ | bclr _ | btgl _ | div _ | mod _ | setp _ => cases hsz

end

/-- Settles O20: equal operands below the size, and equal writes below it. -/
theorem highSourceBitsHaveNoEffect : Obligations.HighSourceBitsHaveNoEffect :=
  fun _ _ _ _ t hsz h => exec_agree h hsz t

end Sys2Proof.Machine
end

section
/-! PROOF. The quotient and the remainder as naturals, what `div`, `mod` and `setp` answer, and with them the three
instructions (R190 to R193). -/

namespace Sys2Proof.Machine

/-! `div` and `mod`. -/

theorem toNat_quotient (a b : Word) :
    (quotient a b).toNat = if b.toNat = 0 then 0xFFFFFFFF else a.toNat / b.toNat := by
  have hzero : b = 0#32 ↔ b.toNat = 0 := BitVec.toNat_inj.symm
  rw [quotient, apply_ite BitVec.toNat]
  exact if_congr hzero rfl BitVec.toNat_udiv

/-- The product that `mod` takes off never exceeds the dividend, so nothing wraps. -/
theorem toNat_remainder (a b : Word) :
    (a - quotient a b * b).toNat = if b.toNat = 0 then a.toNat else a.toNat % b.toNat := by
  by_cases hb : b.toNat = 0
  · obtain rfl : b = 0#32 := BitVec.toNat_inj.mp hb
    simp
  · have hle : a.toNat / b.toNat * b.toNat ≤ a.toNat := Nat.div_mul_le_self _ _
    have hmul : (quotient a b * b).toNat = a.toNat / b.toNat * b.toNat := by
      rw [BitVec.toNat_mul, toNat_quotient, if_neg hb, Nat.mod_eq_of_lt (hle.trans_lt a.isLt)]
    rw [if_neg hb, BitVec.toNat_sub_of_le (by rwa [BitVec.le_def, hmul]), hmul, Nat.mod_eq_sub_div_mul]

theorem exec_div_of_v0 (f : FieldForm) (s : State) (h : s.isV0 = true) :
    exec (.div f) s = .refused .notPresentOnVersion :=
  onlyV3plus_of_v0 s _ h

theorem exec_mod_of_v0 (f : FieldForm) (s : State) (h : s.isV0 = true) :
    exec (.mod f) s = .refused .notPresentOnVersion :=
  onlyV3plus_of_v0 s _ h

theorem exec_div_of_v3plus (f : FieldForm) (s : State) (h : s.isV0 = false) :
    exec (.div f) s =
      .next ((s.setReg f.toAlu.dst (quotient (f.toAlu.src1 s) (f.toAlu.src2 .zero s))).advance f.toAlu.len) :=
  onlyV3plus_of_v3plus s _ h

theorem exec_mod_of_v3plus (f : FieldForm) (s : State) (h : s.isV0 = false) :
    let a := f.toAlu.src1 s
    let b := f.toAlu.src2 .zero s
    exec (.mod f) s = .next ((s.setReg f.toAlu.dst (a - quotient a b * b)).advance f.toAlu.len) :=
  onlyV3plus_of_v3plus s _ h

/-- Settles O57: on v3+ each writes one register, with the quotient and with what it leaves of the dividend. -/
theorem divAndModAreUnsigned : Obligations.DivAndModAreUnsigned := by
  intro f s a b
  refine ⟨fun hv0 => ⟨exec_div_of_v0 f s hv0, exec_mod_of_v0 f s hv0⟩, fun hv3plus => ⟨?div, ?mod⟩⟩
  case div =>
    refine ⟨_, exec_div_of_v3plus f s hv3plus, OnlyChanges.setReg s f.toAlu.dst _ f.toAlu.len, ?_⟩
    rw [State.advance_reg, State.reg_setReg_same, toNat_quotient]
  case mod =>
    refine ⟨_, exec_mod_of_v3plus f s hv3plus, OnlyChanges.setReg s f.toAlu.dst _ f.toAlu.len, ?_⟩
    rw [State.advance_reg, State.reg_setReg_same, toNat_remainder]

/-! `setp`. -/

theorem len_setpForm (f : SetpForm) : f.len = 3 := by cases f <;> rfl

/-- The word that `setp` writes is the old one with bit `n` replaced by bit 0 of the source (R193). -/
theorem setpWord_eq_putBit (fl src : Word) (n : Nat) :
    (fl &&& ~~~BitVec.twoPow 32 n) ||| (src &&& 1#32) <<< n = putBit n (src.getLsbD 0) fl := by
  have habsorb (p : Word) : (fl &&& ~~~p) ||| p = fl ||| p := by
    ext j
    cases hp : p[j] <;> simp [hp]
  rw [BitVec.and_one_eq_setWidth_ofBool_getLsbD]
  cases src.getLsbD 0 with
  | false => simp [putBit]
  | true => exact habsorb (BitVec.twoPow 32 n)

theorem exec_setp_of_free (f : SetpForm) (s : State) (hfree : FlagsBitFree s ((f.src2 s).toNat % 32)) :
    exec (.setp f) s =
      .next ((s.setFlags (putBit ((f.src2 s).toNat % 32) ((f.src1 s).getLsbD 0) s.flags)).advance 3) := by
  rw [← setpWord_eq_putBit, ← len_setpForm f, ← bitIndex_eq]
  exact onFlagsBit_of_free s _ _ (bitIndex_eq _ ▸ hfree)

/-- Settles O58: `setp` replaces the indexed bit of `$flags`. -/
theorem setpSetsOneFlagsBit : Obligations.SetpSetsOneFlagsBit := by
  intro f s n hfree
  have hn : n < 32 := Nat.mod_lt _ (by decide)
  refine ⟨_, exec_setp_of_free f s hfree, (OnlyChanges.advance s 3).setFlags _ fun j hj => ?_, ?_⟩
  · rw [getLsbD_putBit _ _ _ _ hn, if_neg (by simpa using hj)]
  · rw [State.advance_flags, State.setFlags_flags, getLsbD_putBit _ _ _ _ hn, if_pos rfl]

end Sys2Proof.Machine
end

section
/-! PROOF. The bits of a signed bitfield and of an inserted one, what `extrs` and `ins` answer, and with them the two
instructions (R160, R163, R164). -/

namespace Sys2Proof.Machine

/-! `extrs`. -/

/-- The word that `extrs` writes, for the bit it fills with. -/
def filledField (fill : Bool) (v desc : Word) : Word :=
  if fill then bitfield v desc ||| ~~~lowMask (fieldSizem1 desc + 1) else bitfield v desc

/-- The field's bits, and the fill above them (R163). -/
theorem getLsbD_filledField (fill : Bool) (v desc : Word) (j : Nat) (hj : j < 32) :
    (filledField fill v desc).getLsbD j =
      if j ≤ desc.toNat / 32 % 32 then v.getLsbD (desc.toNat % 32 + j) else fill := by
  have hmask : (lowMask (fieldSizem1 desc + 1)).getLsbD j = decide (j ≤ desc.toNat / 32 % 32) := by
    rw [getLsbD_lowMask _ _ hj, fieldSizem1_eq, decide_eq_decide.mpr Nat.lt_succ_iff]
  unfold filledField
  cases fill with
  | false =>
    rw [if_neg Bool.false_ne_true, getLsbD_bitfield v desc j hj]
    split <;> simp [*]
  | true =>
    rw [if_pos rfl, BitVec.getLsbD_or, BitVec.getLsbD_not, hmask, getLsbD_bitfield v desc j hj]
    split <;> simp [*]

theorem exec_extrs_of_v0 (f : FieldForm) (s : State) (h : s.isV0 = true) :
    exec (.extrs f) s = .refused .notPresentOnVersion :=
  onlyV3plus_of_v0 s _ h

theorem exec_extrs_of_v3plus (f : FieldForm) (s : State) (h : s.isV0 = false) :
    let v := f.toAlu.src1 s
    let desc := f.toAlu.src2 .zero s
    let fill := v.getLsbD ((desc.toNat % 32 + desc.toNat / 32 % 32) % 32)
    let res := filledField fill v desc
    exec (.extrs f) s =
      .next (((s.setReg f.toAlu.dst res).setFlags (setZ (res == 0) (setS fill s.flags))).advance f.toAlu.len) := by
  intro v desc
  rw [← fieldLow_eq, ← fieldSizem1_eq]
  exact onlyV3plus_of_v3plus s _ h

/-- Settles O50: on v3+ `extrs` writes the field filled with its sign, `s` as the sign and `z` as the zero test. -/
theorem extrsExtractsSigned : Obligations.ExtrsExtractsSigned := by
  intro f s low sizem1 fill
  refine ⟨exec_extrs_of_v0 f s, fun hv3plus => ?_⟩
  refine ⟨_, exec_extrs_of_v3plus f s hv3plus, (OnlyChanges.setReg s f.toAlu.dst _ f.toAlu.len).setZ_setS _ _,
    fun j hj => ?_, ?_, ?_⟩
  · rw [State.advance_reg, State.setFlags_reg, State.reg_setReg_same, getLsbD_filledField _ _ _ j hj]
  · simp [fill, low, sizem1]
  · simp

/-! `ins`. -/

/-- The word that `ins` writes: `size` low bits of `src` at bit `low` of `old`. -/
def insertField (low size : Nat) (src old : Word) : Word :=
  (old &&& ~~~(lowMask size <<< low)) ||| (src &&& lowMask size) <<< low

theorem getLsbD_insertField (low size : Nat) (src old : Word) (j : Nat) (hj : j < 32) :
    (insertField low size src old).getLsbD j =
      if low ≤ j ∧ j < low + size then src.getLsbD (j - low) else old.getLsbD j := by
  rw [insertField, BitVec.getLsbD_or, BitVec.getLsbD_and, BitVec.getLsbD_not, BitVec.getLsbD_shiftLeft,
    BitVec.getLsbD_shiftLeft, BitVec.getLsbD_and, getLsbD_lowMask size (j - low) (by omega)]
  by_cases hlow : low ≤ j
  · have hin : j - low < size ↔ j < low + size := by omega
    by_cases hhigh : j < low + size
    · simp [hj, hlow, hin, hhigh, Nat.not_lt.mpr hlow]
    · simp [hj, hlow, hin, hhigh]
  · simp [hj, hlow, Nat.lt_of_not_le hlow]

theorem exec_ins_of_v0 (f : InsForm) (s : State) (h : s.isV0 = true) :
    exec (.ins f) s = .refused .notPresentOnVersion :=
  onlyV3plus_of_v0 s _ h

theorem exec_ins_of_v3plus (f : InsForm) (s : State) (h : s.isV0 = false) :
    let desc := f.toAlu.src2 .zero s
    let low := desc.toNat % 32
    let size := desc.toNat / 32 % 32 + 1
    exec (.ins f) s =
      if low + size ≤ 32 then
        .next ((s.setReg f.toAlu.dst (insertField low size (f.toAlu.src1 s) (s.reg f.toAlu.dst))).advance f.toAlu.len)
      else insOutside f.toAlu.len s := by
  intro desc
  rw [← fieldLow_eq, ← fieldSizem1_eq]
  exact onlyV3plus_of_v3plus s _ h

/-- Settles O51: in bounds `ins` writes the one register; out of bounds the parameter decides. -/
theorem insInsertsABitfield : Obligations.InsInsertsABitfield := by
  intro f s low size
  refine ⟨exec_ins_of_v0 f s, fun hv3plus => ?_⟩
  rw [exec_ins_of_v3plus f s hv3plus]
  split_ifs with hin hnop
  · refine ⟨_, rfl, OnlyChanges.setReg s f.toAlu.dst _ f.toAlu.len, fun j hj => ?_⟩
    rw [State.advance_reg, State.reg_setReg_same, getLsbD_insertField _ _ _ _ j hj]
  · refine ⟨_, ?_, OnlyChanges.advance s f.toAlu.len⟩
    rw [insOutside, hnop]
    rfl
  · rw [insOutside]
    cases hoob : s.config.insOob with
    | nop => exact absurd hoob hnop
    | refuse => rfl

end Sys2Proof.Machine
end

section
/-! PROOF. The frames of the instructions' own statements, read for `$flags` alone, and with them that an instruction
writes no flag that the table of R27 does not list. -/

namespace Sys2Proof.Machine

/-- The `$flags` bits that `t` may have changed are those in `bits`. -/
def KeepsFlagsBut (bits : List Nat) (s t : State) : Prop := ∀ j, j ∉ bits → t.flags.getLsbD j = s.flags.getLsbD j

/-- The next state has the frame that the answer was proved to have. -/
theorem KeepsFlagsBut.of_frame {m : Result} {s t : State} (h : m = .next t) {dst : Option Reg} {bits : List Nat}
    {len : Nat} {p : State → Prop} (hframe : ∃ u, m = .next u ∧ OnlyChanges s u dst bits len ∧ p u) :
    KeepsFlagsBut bits s t := by
  obtain ⟨u, hu, hchanges, -⟩ := hframe
  obtain rfl : u = t := Host.Outcome.next.inj (hu.symm.trans h)
  exact hchanges.flags

/-- No flag is written where the flags are the old ones. -/
theorem KeepsFlagsBut.of_flags_eq {s t : State} (h : t.flags = s.flags) : KeepsFlagsBut [] s t :=
  fun _ _ => by rw [h]

/-- A bit that was accessed was free to be. -/
theorem flagsBitFree_of_onFlagsBit_next {s t : State} {v : Word} {m : Result}
    (h : onFlagsBit s (bitIndex v) m = .next t) : FlagsBitFree s (v.toNat % 32) := by
  obtain ⟨husable, -⟩ := onFlagsBit_next s t _ m h
  exact (s.flagsBitUsable_iff _).mp (bitIndex_eq v ▸ husable)

/-- `bset`, `bclr` and `btgl` write the indexed bit in a `$flags` form, and no flag in the others (R27). -/
theorem modifyBit_keepsFlags {op : Word → Nat → Word} {new : Bool → Bool} (hop : ReplacesBit op new) (f : BitForm)
    {s t : State} (h : modifyBit op f s = .next t) :
    KeepsFlagsBut (if f.dst = none then [(f.src s).toNat % 32] else []) s t := by
  obtain ⟨hregister, hflags⟩ := modifyBit_replaces hop f s
  cases hdst : f.dst with
  | some d =>
    rw [if_neg (by simp)]
    exact KeepsFlagsBut.of_frame h (hregister d hdst)
  | none =>
    rw [if_pos rfl]
    have hfree : FlagsBitFree s ((f.src s).toNat % 32) := by
      simp only [modifyBit, hdst] at h
      exact flagsBitFree_of_onFlagsBit_next h
    exact KeepsFlagsBut.of_frame h (hflags hdst hfree)

theorem xbit_keepsFlags (f : XbitForm) {s t : State} (h : exec (.xbit f) s = .next t) :
    KeepsFlagsBut (if s.isV0 then [] else [10, 11]) s t := by
  have hfree (hread : f.readsFlags = true) : FlagsBitFree s ((f.src2 s).toNat % 32) := by
    simp only [exec, execXbit, hread, if_true] at h
    exact flagsBitFree_of_onFlagsBit_next h
  obtain ⟨hv3plus, hv0⟩ := xbitExtractsABit f s hfree
  cases hv : s.isV0 with
  | true => exact KeepsFlagsBut.of_frame h (hv0 hv)
  | false => exact KeepsFlagsBut.of_frame h (hv3plus hv)

theorem ins_keepsFlags (f : InsForm) {s t : State} (h : exec (.ins f) s = .next t) : KeepsFlagsBut [] s t := by
  obtain ⟨hv, -⟩ := onlyV3plus_next s t _ h
  obtain ⟨-, hins⟩ := insInsertsABitfield f s
  have hv3plus := hins hv
  split_ifs at hv3plus with hin hnop
  · exact KeepsFlagsBut.of_frame h hv3plus
  · obtain ⟨u, hu, hchanges⟩ := hv3plus
    obtain rfl : u = t := Host.Outcome.next.inj (hu.symm.trans h)
    exact hchanges.flags
  · cases hv3plus.symm.trans h

/-- Settles O22: each instruction's own statement frames the flags that the table lists for it. -/
theorem onlyTabulatedFlagsAreWritten : Obligations.OnlyTabulatedFlagsAreWritten := by
  intro i s t h
  change KeepsFlagsBut (flagsWritten s i) s t
  cases i with
  | cmpu sz f => exact KeepsFlagsBut.of_frame h (cmpuComparesUnsigned sz f s)
  | cmps sz f => exact KeepsFlagsBut.of_frame h (cmpsComparesSigned sz f s)
  | cmp sz f =>
    obtain ⟨hv, -⟩ := onlyV3plus_next s t _ h
    exact KeepsFlagsBut.of_frame h ((cmpSetsTheFlagsOfASubtraction sz f s).2 hv)
  | add sz f => exact KeepsFlagsBut.of_frame h (addComputesSumAndFlags sz f s)
  | adc sz f => exact KeepsFlagsBut.of_frame h (adcComputesSumWithCarryAndFlags sz f s)
  | sub sz f => exact KeepsFlagsBut.of_frame h (subComputesDifferenceAndFlags sz f s)
  | sbb sz f => exact KeepsFlagsBut.of_frame h (sbbComputesDifferenceWithBorrowAndFlags sz f s)
  | shl sz f => exact KeepsFlagsBut.of_frame h (shlShiftsLeft sz f s)
  | shr sz f => exact KeepsFlagsBut.of_frame h (shrShiftsRight sz f s)
  | sar sz f => exact KeepsFlagsBut.of_frame h (sarShiftsTheSignIn sz f s)
  | shlc sz f => exact KeepsFlagsBut.of_frame h (shlcShiftsTheCarryIn sz f s)
  | shrc sz f => exact KeepsFlagsBut.of_frame h (shrcShiftsTheCarryIn sz f s)
  | not sz f => exact KeepsFlagsBut.of_frame h (notFlipsEveryBit sz f s)
  | neg sz f => exact KeepsFlagsBut.of_frame h (negNegates sz f s)
  | movf sz f =>
    obtain ⟨hv, -⟩ := onlyV0_next s t _ h
    exact KeepsFlagsBut.of_frame h ((registerMovesByVersion sz f s).1 hv)
  | movReg sz f =>
    obtain ⟨hv, -⟩ := onlyV3plus_next s t _ h
    exact KeepsFlagsBut.of_frame h ((registerMovesByVersion sz f s).2 hv)
  | hswap sz f => exact KeepsFlagsBut.of_frame h (hswapRotatesByHalf sz f s)
  | movImm _ | sethi _ =>
    cases h
    exact KeepsFlagsBut.of_flags_eq rfl
  | clear sz r2 => exact KeepsFlagsBut.of_frame h (clearZeroesTheLowBits sz r2 s)
  | setf sz r2 =>
    obtain ⟨hv, -⟩ := onlyV3plus_next s t _ h
    exact KeepsFlagsBut.of_frame h ((setfTestsAValue sz r2 s).2 hv)
  | mulu f => exact KeepsFlagsBut.of_frame h (muluMultipliesLowHalves f s)
  | muls f => exact KeepsFlagsBut.of_frame h (mulsMultipliesSignedLowHalves f s)
  | sext f => exact KeepsFlagsBut.of_frame h (sextCopiesTheSignBit f s)
  | extr f =>
    obtain ⟨hv, -⟩ := onlyV3plus_next s t _ h
    exact KeepsFlagsBut.of_frame h ((extrExtractsUnsigned f s).2 hv)
  | extrs f =>
    obtain ⟨hv, -⟩ := onlyV3plus_next s t _ h
    exact KeepsFlagsBut.of_frame h ((extrsExtractsSigned f s).2 hv)
  | ins f => exact ins_keepsFlags f h
  | and f =>
    obtain ⟨hand, -, -⟩ := bitwiseOperations f s
    exact KeepsFlagsBut.of_frame h hand
  | or f =>
    obtain ⟨-, hor, -⟩ := bitwiseOperations f s
    exact KeepsFlagsBut.of_frame h hor
  | xor f =>
    obtain ⟨-, -, hxor⟩ := bitwiseOperations f s
    exact KeepsFlagsBut.of_frame h hxor
  | xbit f => exact xbit_keepsFlags f h
  | bset f => exact modifyBit_keepsFlags replacesBit_or_twoPow f h
  | bclr f => exact modifyBit_keepsFlags replacesBit_andNot_twoPow f h
  | btgl f => exact modifyBit_keepsFlags replacesBit_xor_twoPow f h
  | div f =>
    obtain ⟨hv, -⟩ := onlyV3plus_next s t _ h
    obtain ⟨-, hv3plus⟩ := divAndModAreUnsigned f s
    exact KeepsFlagsBut.of_frame h (hv3plus hv).1
  | mod f =>
    obtain ⟨hv, -⟩ := onlyV3plus_next s t _ h
    obtain ⟨-, hv3plus⟩ := divAndModAreUnsigned f s
    exact KeepsFlagsBut.of_frame h (hv3plus hv).2
  | setp f => exact KeepsFlagsBut.of_frame h (setpSetsOneFlagsBit f s (flagsBitFree_of_onFlagsBit_next h))

end Sys2Proof.Machine
end

section
/-! PROOF. The source's carry and overflow functions as the carry out and the signed overflow of an addition with either
carry in, subtraction as the addition of the complement, and with them what the flags `c` and `o` mean (R8 to R11, R101,
R103, R111 to R114). -/

namespace Sys2Proof.Machine

/-! Addition with a carry in, at any width: `c` is the carry as a word. -/

section
variable {w : Nat} (x y : BitVec w) {cin : Bool} {c : BitVec w} (hc : c.toNat = cin.toNat)
include hc

/-- The sum is below `2 * 2 ^ w`, so that its remainder is the sum itself or the sum less the modulus. -/
theorem toNat_add_add_cases :
    (x + y + c).toNat + (if 2 ^ w ≤ x.toNat + y.toNat + cin.toNat then 2 ^ w else 0) =
      x.toNat + y.toNat + cin.toNat := by
  have hx := x.isLt
  have hy := y.isLt
  have hcin := cin.toNat_le
  rw [toNat_add_add, hc]
  split
  · rw [Nat.mod_eq_sub_mod ‹_›, Nat.mod_eq_of_lt (by omega)]
    omega
  · exact Nat.mod_eq_of_lt (by omega)

variable (hw : 0 < w)
include hw

theorem carryFn_add_add :
    carryFn x.msb y.msb (x + y + c).msb = decide (2 ^ w ≤ x.toNat + y.toNat + cin.toNat) := by
  have hformula (p q r : Bool) : carryFn p q r = (p && q || (p || q) && !r) := by decide +revert
  have hhalf : 2 ^ w = 2 * 2 ^ (w - 1) := (mul_pow_sub_one hw.ne' 2).symm
  have hx := x.isLt
  have hy := y.isLt
  have hcin := cin.toNat_le
  have hsum := toNat_add_add_cases x y hc
  rw [hformula, BitVec.msb_eq_decide, BitVec.msb_eq_decide, BitVec.msb_eq_decide, Bool.eq_iff_iff]
  simp only [Bool.or_eq_true, Bool.and_eq_true, Bool.not_eq_true', decide_eq_true_iff, decide_eq_false_iff_not]
  split at hsum <;> omega

theorem overflowFn_add_add :
    overflowFn x.msb y.msb (x + y + c).msb =
      decide (x.toInt + y.toInt + cin.toNat < -(2 ^ (w - 1) : Int) ∨
        (2 ^ (w - 1) : Int) ≤ x.toInt + y.toInt + cin.toNat) := by
  have hhalf : 2 ^ w = 2 * 2 ^ (w - 1) := (mul_pow_sub_one hw.ne' 2).symm
  have hcast : (2 ^ (w - 1) : Int) = ((2 ^ (w - 1) : Nat) : Int) := by push_cast; rfl
  have hx := x.isLt
  have hy := y.isLt
  have hcin := cin.toNat_le
  have hsum := toNat_add_add_cases x y hc
  rw [hcast, overflowFn, BitVec.msb_eq_decide, BitVec.msb_eq_decide, BitVec.msb_eq_decide, Bool.eq_iff_iff,
    BitVec.toInt_eq_toNat_cond, BitVec.toInt_eq_toNat_cond]
  simp only [Bool.and_eq_true, beq_iff_eq, bne_iff_ne, ne_eq, decide_eq_true_iff, decide_eq_decide]
  split at hsum <;> split <;> split <;> omega

end

/-! Subtraction with a borrow in: the addition of the complement with the opposite carry in (R11). -/

theorem toInt_complement {w : Nat} (hw : 0 < w) (y : BitVec w) : (~~~y).toInt = -y.toInt - 1 := by
  have hhalf : 2 ^ w = 2 * 2 ^ (w - 1) := (mul_pow_sub_one hw.ne' 2).symm
  have hy := y.isLt
  rw [BitVec.toInt_eq_toNat_cond, BitVec.toInt_eq_toNat_cond, BitVec.toNat_not]
  split <;> split <;> omega

theorem sub_sub_eq_add_complement {w : Nat} (x y c : BitVec w) : x - y - c = x + ~~~y + (1#w - c) := by
  rw [BitVec.not_eq_neg_add]
  ring

theorem toNat_one_sub {w : Nat} (hw : 0 < w) {cin : Bool} {c : BitVec w} (hc : c.toNat = cin.toNat) :
    (1#w - c).toNat = (!cin).toNat := by
  cases cin with
  | false =>
    obtain rfl : c = 0#w := BitVec.eq_of_toNat_eq hc
    simpa using hw
  | true =>
    obtain rfl : c = 1#w := BitVec.eq_of_toNat_eq (by simpa [Nat.mod_eq_of_lt, hw] using hc)
    simp

section
variable {w : Nat} (x y : BitVec w) {cin : Bool} {c : BitVec w} (hc : c.toNat = cin.toNat) (hw : 0 < w)
include hc hw

theorem not_carryFn_sub_sub :
    (!carryFn x.msb (!y.msb) (x - y - c).msb) = decide (x.toNat < y.toNat + cin.toNat) := by
  have hmsb : (~~~y).msb = !y.msb := by simp [hw]
  have hnot : (!cin).toNat = 1 - cin.toNat := by cases cin <;> rfl
  have hy := y.isLt
  have hcin := cin.toNat_le
  rw [sub_sub_eq_add_complement, ← hmsb, carryFn_add_add x (~~~y) (toNat_one_sub hw hc) hw, BitVec.toNat_not, hnot,
    ← decide_not, decide_eq_decide]
  omega

theorem overflowFn_sub_sub :
    overflowFn x.msb (!y.msb) (x - y - c).msb =
      decide (x.toInt - y.toInt - cin.toNat < -(2 ^ (w - 1) : Int) ∨
        (2 ^ (w - 1) : Int) ≤ x.toInt - y.toInt - cin.toNat) := by
  have hmsb : (~~~y).msb = !y.msb := by simp [hw]
  have hnot : ((!cin).toNat : Int) = 1 - cin.toNat := by cases cin <;> rfl
  rw [sub_sub_eq_add_complement, ← hmsb, overflowFn_add_add x (~~~y) (toNat_one_sub hw hc) hw, toInt_complement hw,
    hnot, decide_eq_decide]
  omega

end

/-! Without a carry or a borrow in. -/

section
variable {w : Nat} (x y : BitVec w) (hw : 0 < w)
include hw

theorem carryFn_add : carryFn x.msb y.msb (x + y).msb = decide (2 ^ w ≤ x.toNat + y.toNat) := by
  simpa using carryFn_add_add x y (c := 0) (cin := false) rfl hw

theorem overflowFn_add :
    overflowFn x.msb y.msb (x + y).msb =
      decide (x.toInt + y.toInt < -(2 ^ (w - 1) : Int) ∨ (2 ^ (w - 1) : Int) ≤ x.toInt + y.toInt) := by
  simpa using overflowFn_add_add x y (c := 0) (cin := false) rfl hw

theorem not_carryFn_sub : (!carryFn x.msb (!y.msb) (x - y).msb) = decide (x.toNat < y.toNat) := by
  simpa using not_carryFn_sub_sub x y (c := 0) (cin := false) rfl hw

theorem overflowFn_sub :
    overflowFn x.msb (!y.msb) (x - y).msb =
      decide (x.toInt - y.toInt < -(2 ^ (w - 1) : Int) ∨ (2 ^ (w - 1) : Int) ≤ x.toInt - y.toInt) := by
  simpa using overflowFn_sub_sub x y (c := 0) (cin := false) rfl hw

end

/-- Settles O23: the sum with the carry in reaches the modulus exactly where the functions of its high bits say so. -/
theorem carryAndOverflowFunctions : Obligations.CarryAndOverflowFunctions := by
  refine ⟨fun w x y cin => ?_, by decide, fun w x y => overflowFn_add x y (Nat.succ_pos w)⟩
  exact carryFn_add_add x y (by cases cin <;> simp) (Nat.succ_pos w)

/-- Settles O60: the flags written are the carry and overflow functions, whose meaning the lemmas above give. -/
theorem carryAndOverflowFlagsMeanOutOfRange : Obligations.CarryAndOverflowFlagsMeanOutOfRange := by
  intro sz s half cin
  have hw := width_pos sz
  have hcin := toNat_carryIn sz s
  refine ⟨fun f => ⟨?add, ?adc, ?sub, ?sbb⟩, fun f => ⟨?cmpu, fun hv3plus => ?cmp⟩⟩
  case add =>
    obtain ⟨t, hexec, h⟩ := exec_add_writesResult sz f s
    refine ⟨t, hexec, ?_, ?_⟩
    · rw [h.carry, addCarry_eq, carryFn_add _ _ hw, decide_eq_true_iff]
    · rw [h.overflow, addOverflow_eq, overflowFn_add _ _ hw, decide_eq_true_iff]
  case adc =>
    obtain ⟨t, hexec, h⟩ := exec_adc_writesResult sz f s
    refine ⟨t, hexec, ?_, ?_⟩
    · rw [h.carry, addCarry_eq, carryFn_add_add _ _ hcin hw, decide_eq_true_iff]
    · rw [h.overflow, addOverflow_eq, overflowFn_add_add _ _ hcin hw, decide_eq_true_iff]
  case sub =>
    obtain ⟨t, hexec, h⟩ := exec_sub_writesResult sz f s
    refine ⟨t, hexec, ?_, ?_⟩
    · rw [h.carry, subBorrow_eq, not_carryFn_sub _ _ hw, decide_eq_true_iff]
    · rw [h.overflow, subOverflow_eq, overflowFn_sub _ _ hw, decide_eq_true_iff]
  case sbb =>
    obtain ⟨t, hexec, h⟩ := exec_sbb_writesResult sz f s
    refine ⟨t, hexec, ?_, ?_⟩
    · rw [h.carry, subBorrow_eq, not_carryFn_sub_sub _ _ hcin hw, decide_eq_true_iff]
    · rw [h.overflow, subOverflow_eq, overflowFn_sub_sub _ _ hcin hw, decide_eq_true_iff]
  case cmpu =>
    obtain ⟨t, hexec, -, hcarry, -⟩ := cmpuComparesUnsigned sz f s
    refine ⟨t, hexec, ?_⟩
    rw [hcarry, not_carryFn_sub _ _ hw, decide_eq_true_iff]
  case cmp =>
    obtain ⟨-, hcmp⟩ := cmpSetsTheFlagsOfASubtraction sz f s
    obtain ⟨t, hexec, -, hcarry, hoverflow, -⟩ := hcmp hv3plus
    refine ⟨t, hexec, ?_, ?_⟩
    · rw [hcarry, not_carryFn_sub _ _ hw, decide_eq_true_iff]
    · rw [hoverflow, overflowFn_sub _ _ hw, decide_eq_true_iff]

end Sys2Proof.Machine
end

section
/-! PROOF. The operands of every form, which the accessors of the forms give by definition (R62, R64, R100, R120, R130,
R140, R160, R180, R181, R190, R193). -/

namespace Sys2Proof.Machine

/-- Settles O24: each clause is one equation of an accessor, or of `extend`. -/
theorem operandFormsAreAsTabulated : Obligations.OperandFormsAreAsTabulated := by
  intro s e r1 r2 r3 i8 i16
  and_intros <;> rfl

end Sys2Proof.Machine
end
